-- ==== Sys2Proof/Word.lean ====
section
/-! DEFINITION. The two word sizes of LOTP-CORE: the hash word and register word of 32 bits (spec R6, R8) and
the byte of the RAMs and of the key store (R33, R34). All arithmetic is that of `BitVec`: unsigned and modulo a
power of two (R6, R10). -/

namespace Sys2Proof

/-- A byte of a RAM, of the key store or of a byte stream. -/
abbrev Byte := BitVec 8

/-- A 32-bit word: a hash word, a register, a bus address (R6, R8, R60). -/
abbrev Word := BitVec 32

end Sys2Proof
end

