-- ==== Sys2Proof/Config.lean ====
section
/-! DEFINITION. What an implementation fixes (the named parameters of spec R7, R8, R61) and the free values (the
draws of spec R13 and of 93_implementation_defined.md, treatment `any value`). -/

namespace Sys2Proof

/-- The three named parameters of the spec. A machine carries them unchanged for its whole life. -/
structure Config where
  /-- BUF_CAP: the byte capacity of each of the RAMs MSG, KEY and OUT (R7). -/
  bufCap : Nat
  /-- CORE_BASE: the bus address the platform places the block at (R61). -/
  coreBase : Word
  /-- KS_WIDTH: the width in bits of the key store's size (R8). -/
  ksWidth : Nat
  deriving DecidableEq, Repr

/-- The values the spec suggests: BUF_CAP 4096 (R7), CORE_BASE 0 (R61), KS_WIDTH 32 (R8). -/
def Config.standard : Config := { bufCap := 4096, coreBase := 0, ksWidth := 32 }

/-- A 32-bit draw, free at every index: nothing in Lean can evaluate it (R13 `draw`; U8, U9, and the rdata of a write's
response, assumption 9). -/
opaque Config.freeWord : Nat → BitVec 32

/-- A byte draw, free at every index (R13 `draw`; U7, U8, U9, and assumption 9). -/
opaque Config.freeByte : Nat → BitVec 8

/-- A one-bit draw, free at every index (R13 `draw`; U9, U11). -/
opaque Config.freeBit : Nat → Bool

/-- Whether a key-store request answers `IoFail`, where the state does not list the environment's answer: free at
every request and under no law (R228; U4). -/
opaque Config.freeIoFail : Nat → Bool

/-- The content of the RAM byte at a block-relative address after the given power-on, until something writes it:
unspecified, and the same at every read (R33, R69, R292; U6). -/
opaque Config.powerOnByte : Nat → Nat → BitVec 8

end Sys2Proof
end

