-- ==== Sys2Proof/Syntax.lean ====
section
/-! DEFINITION. The syntax of everything that reaches LOTP-CORE: the commands (spec R93), the command word's
fields (R90), the host bus transactions (R91), the names of the address map (R61, 10_state.md section 3), and the
events the outside world and the engine take turns with. -/

namespace Sys2Proof

/-- The commands, one constructor per row of the opcode table (R93). `otpXor` carries the row's field T. -/
inductive Instr where
  /-- NOP (R118). -/
  | nop
  /-- SHA_DIGEST (R180). -/
  | shaDigest
  /-- HMAC (R208). -/
  | hmac
  /-- XOR (R221). -/
  | xor
  /-- OTP_XOR with `truncate = false`, OTP_XOR.T with `truncate = true` (R236). -/
  | otpXor (truncate : Bool)
  deriving DecidableEq, Repr

/-- The fields of a command word, format CMD32 (R90), legal or not. -/
structure CmdFields where
  /-- Bits 7:0, the operation code. -/
  op : BitVec 8
  /-- Bit 8, truncate the key store. -/
  t : Bool
  /-- Bits 31:9, reserved. -/
  rsv : BitVec 23
  deriving DecidableEq, Repr

/-- Direction of a bus transaction (R91). -/
inductive Dir where
  | rd
  | wr
  deriving DecidableEq, Repr

/-- A host bus transaction `(dir, addr, size, wdata)` (R91). `size` counts bytes and may be any number, so that a
request of an unsupported width can be written down and answered with a bus error (R67). -/
structure Txn where
  dir : Dir
  addr : Word
  size : Nat
  wdata : Word
  deriving DecidableEq, Repr

/-- The registers of the register window (10_state.md section 3). -/
inductive Reg where
  | cmd
  | status
  | msgLen
  | keyLen
  | outLen
  | ksSize
  | bufCap
  | digest (i : Fin 8)
  deriving DecidableEq, Repr

/-- The three RAM windows (R61). -/
inductive Window where
  | msg
  | key
  | out
  deriving DecidableEq, Repr

/-- What one turn of the machine can be. The turns come in any order the outside world chooses. -/
inductive Event where
  /-- One host bus transaction (R73). -/
  | bus (t : Txn)
  /-- A turn of the engine: it performs the whole of the accepted command, if there is one (R14). -/
  | engine
  /-- The reset input `rst` is asserted, or released (R290, R296). -/
  | rst (level : Bool)
  /-- Power-on (R292). -/
  | powerOn
  /-- The platform makes a key store holding this key file present (R296 step 2). -/
  | keyFile (bytes : List Byte)
  deriving DecidableEq, Repr

end Sys2Proof
end

