-- ==== Sys2Proof/WellFormed.lean ====
section
/-! DEFINITION. The well-formedness checks: of a command word's fields (spec R94), of the named parameters (R7,
R8), of a transaction's width (R67), and of a key file's size (R8, R34). -/

namespace Sys2Proof

/-- Bits 31:9 of a valid command word are 0 (R94, first condition). -/
def CmdFields.rsvZero (f : CmdFields) : Bool := f.rsv == 0

/-- OP of a valid command word is one of 0x00 to 0x04 (R94, second condition). -/
def CmdFields.opKnown (f : CmdFields) : Bool :=
  f.op == 0x00 || f.op == 0x01 || f.op == 0x02 || f.op == 0x03 || f.op == 0x04

/-- T is 0 unless OP is 0x04 (R94, third condition). -/
def CmdFields.tAllowed (f : CmdFields) : Bool := !f.t || f.op == 0x04

/-- A command word's fields are those of a valid word (R94). -/
def CmdFields.wf (f : CmdFields) : Bool := f.rsvZero && f.opKnown && f.tAllowed

/-- The fields an instruction stands for (R93's table). -/
def Instr.fields : Instr → CmdFields
  | .nop => { op := 0x00, t := false, rsv := 0 }
  | .shaDigest => { op := 0x01, t := false, rsv := 0 }
  | .hmac => { op := 0x02, t := false, rsv := 0 }
  | .xor => { op := 0x03, t := false, rsv := 0 }
  | .otpXor t => { op := 0x04, t := t, rsv := 0 }

/-- An instruction is well formed when the fields it stands for are valid. Every term of `Instr` is: the syntax has
no operand field that could be out of range. -/
def Instr.wf (i : Instr) : Bool := i.fields.wf

/-- 64 ≤ BUF_CAP ≤ 65536 (R7), and a key store's size fits the 32-bit register KS_SIZE (R8, R28,
assumption 7). -/
def Config.wf (c : Config) : Bool :=
  decide (64 ≤ c.bufCap) && decide (c.bufCap ≤ 65536) && decide (c.ksWidth ≤ 32)

/-- The bus has accesses of 1 and of 4 bytes and no others (R67). -/
def Txn.sizeOk (t : Txn) : Bool := t.size == 1 || t.size == 4

/-- A key file's size is below 2^KS_WIDTH (R8, R34). -/
def keyFileOk (c : Config) (bytes : List Byte) : Bool := decide (bytes.length < 2 ^ c.ksWidth)

end Sys2Proof
end

