-- ==== Sys2Proof/Decode.lean ====
section
/-! DEFINITION. The command decoder (spec R90, R94, R95) and, after it, the encoder (R93). Every command is one
32-bit word; there are no other lengths (R96). -/

namespace Sys2Proof

/-- Why a word is illegal (R95's three kinds of reserved encoding). -/
inductive DecodeError where
  /-- v[31:9] ≠ 0. -/
  | reservedBits
  /-- OP is 0x05 to 0xFF. -/
  | unknownOp
  /-- T = 1 with OP ≠ 0x04. -/
  | strayTruncate
  deriving DecidableEq, Repr

/-- What the decoder answers. -/
inductive Decoded where
  | instr (i : Instr)
  | illegal (e : DecodeError)
  deriving DecidableEq, Repr

/-- The fields of a command word: OP = v[7:0], T = v[8], RSV = v[31:9] (R90). -/
def fieldsOf (v : Word) : CmdFields :=
  { op := v.extractLsb' 0 8, t := v.getLsbD 8, rsv := v.extractLsb' 9 23 }

/-- The row of R93 that OP and T select. An OP the table does not list selects none (R95). -/
def selectRow (op : BitVec 8) (t : Bool) : Option Instr :=
  if op = 0x00 then some .nop
  else if op = 0x01 then some .shaDigest
  else if op = 0x02 then some .hmac
  else if op = 0x03 then some .xor
  else if op = 0x04 then some (.otpXor t)
  else none

/-- Decoding is total: every 32-bit value is a valid word or is illegal, by name (R94, R95). -/
def decode (v : Word) : Decoded :=
  if (fieldsOf v).rsv ≠ 0 then .illegal .reservedBits
  else match selectRow (fieldsOf v).op (fieldsOf v).t with
    | none => .illegal .unknownOp
    | some i => if (fieldsOf v).t = true ∧ (fieldsOf v).op ≠ 0x04 then .illegal .strayTruncate else .instr i

/-- The instruction a decoder's answer holds, if it is one. -/
def Decoded.toOption : Decoded → Option Instr
  | .instr i => some i
  | .illegal _ => none

/-- The command word with these fields: RSV in bits 31:9, T in bit 8, OP in bits 7:0 (R90). -/
def wordOf (f : CmdFields) : Word :=
  (f.rsv.setWidth 32 <<< 9) ||| ((BitVec.ofBool f.t).setWidth 32 <<< 8) ||| f.op.setWidth 32

/-- The command word of an instruction (R93). -/
def encode (i : Instr) : Word := wordOf i.fields

/-- The instruction the decoder reads from an instruction whose bits are `w`, numbered as the opcode table numbers
them. A command word is one 32-bit word (R96), so nothing above bit 31 belongs to one. -/
def decodeTableWord (nbits w : Nat) : Option Instr :=
  if nbits ≤ 32 ∧ w < 2 ^ 32 then (decode (BitVec.ofNat 32 w)).toOption else none

end Sys2Proof
end

