-- ==== Sys2Proof/Machine/State.lean ====
section
/-! DEFINITION. The state of LOTP-CORE with its key store and its bus port (spec 10_state.md), the ways a step can
stop, and the state after reset (R291, R292). -/

namespace Sys2Proof.Machine

/-- The eight words H[0..7] of a hash state or digest (R31, R15 "Digest Value"). -/
structure Hash where
  h0 : Word
  h1 : Word
  h2 : Word
  h3 : Word
  h4 : Word
  h5 : Word
  h6 : Word
  h7 : Word
  deriving DecidableEq, Repr

/-- The eight working variables a..h of the rounds (R31, R156). -/
structure Work where
  a : Word
  b : Word
  c : Word
  d : Word
  e : Word
  f : Word
  g : Word
  h : Word
  deriving DecidableEq, Repr

/-- PHASE, the source select of the dual_hash_mux (R31, R205). -/
inductive Phase where
  | plain
  | keyHash
  | inner
  | outer
  deriving DecidableEq, Repr

/-- The state of the OTP sequencer (R230). -/
inductive OtpState where
  | idle
  | reading
  | validated
  | consumed
  deriving DecidableEq, Repr

/-- The codes of STATUS.ERR that the block can write; 6 to 15 are never written (R260). -/
inductive ErrCode where
  | none
  | illegalCmd
  | capacity
  | lengthMismatch
  | keyTooShort
  | ioFailure
  deriving DecidableEq, Repr

/-- The response line of the bus (R91). -/
inductive Resp where
  | ok
  | busError
  deriving DecidableEq, Repr

/-- A bus response, the pair `(resp, rdata)` (R91). After a write, of whose rdata R91 says no more than its width, the
value is free (assumption 9). -/
structure BusResp where
  resp : Resp
  rdata : Word
  deriving DecidableEq, Repr

/-- The engine's internal state (R31's table, without OTP_STATE and LOCK, which `State` holds). Only `h` can be
observed and only `h` outlives a command; the rest is scratch for one command. -/
structure Engine where
  /-- H[0..7], the running hash state and the result of the last digest. -/
  h : Hash
  /-- a, b, c, d, e, f, g, h. -/
  work : Work
  /-- W[0..63], the message schedule of the current block. -/
  w : List Word
  /-- t, the round counter. -/
  t : BitVec 6
  /-- blk, the index of the current 64-byte block. -/
  blk : Word
  /-- KP[0..63], the padded HMAC key. -/
  kp : List Byte
  /-- IH[0..7], the HMAC inner digest. -/
  ih : Hash
  /-- PHASE. -/
  phase : Phase
  /-- n_lat. -/
  nLat : Word
  /-- k_lat. -/
  kLat : Word
  /-- T_lat. -/
  tLat : Bool
  /-- OP of the accepted command: what R110's "the command selected by v[7:0]" needs while BUSY = 1 (assumption 5). -/
  opLat : BitVec 8
  deriving DecidableEq, Repr

/-- The bytes of the three RAMs that something has written since power-on, by block-relative bus address (R61),
addresses strictly rising. An address that is not listed holds its unspecified power-on content (R33). -/
abbrev Memory := List Host.Cell

/-- The canonical form of a memory: addresses strictly rising. An unlisted address holds no written byte, so no
listed entry can equal what an unlisted address holds. -/
abbrev Memory.wf (m : Memory) : Prop := m.Pairwise (fun x y => x.1 < y.1)

/-- The whole machine: the block, its bus port, and the key store beside it. -/
structure State where
  /-- The named parameters (R7, R8, R61); no step changes them. -/
  cfg : Config
  /-- The turns to come (R5, R14, R73); with none listed, the engine has every turn. -/
  agenda : List Event
  /-- The reset input `rst` (R290). -/
  rst : Bool
  /-- The response to the last bus transaction (R91). -/
  resp : Option BusResp
  /-- STATUS.BUSY (R24). -/
  busy : Bool
  /-- STATUS.DONE (R24). -/
  done : Bool
  /-- STATUS.OVR (R24). -/
  ovr : Bool
  /-- STATUS.ERR (R24, R260). -/
  err : ErrCode
  /-- STATUS.OTP_STATE (R24, R31, R230). -/
  otpState : OtpState
  /-- MSG_LEN (R25). -/
  msgLen : Word
  /-- KEY_LEN (R26). -/
  keyLen : Word
  /-- OUT_LEN (R27). -/
  outLen : Word
  /-- The engine's internal state (R31). -/
  eng : Engine
  /-- LOCK (R31, R78). -/
  lock : Bool
  /-- MSG, KEY and OUT RAM (R33). -/
  mem : Memory
  /-- KS, the contents of the key store (R34); its size m is the length. -/
  ks : List Byte
  /-- The environment's answers to the next key-store requests, `true` for `IoFail` (R228); with none listed, the
  answer is `Config.freeIoFail`. -/
  ksEnv : List Bool
  /-- The model's own: how many key-store requests have found no answer listed, the index of the next free answer
  (R228, assumption 10). -/
  ksAsked : Nat
  /-- The model's own: how many draws have been taken, the index of the next free value (R13 `draw`). -/
  draws : Nat
  /-- The model's own: how many times power has been applied, the index of the RAMs' power-on content (R292). -/
  powerOns : Nat
  deriving DecidableEq, Repr

/-- The ways a step stops: the situations to which the spec gives no step (93_implementation_defined.md, treatment
`stuck`). No command of the opcode table ends in one. -/
inductive Fault where
  /-- A bus transaction while `rst` is asserted, "a model gives it no step" (R290, U18). Raised by the bus turn.
  Safe: the model stops where the hardware does something undefined. -/
  | busDuringReset
  /-- Another agent's move on the key store while a command runs or LOCK = 1 (R235, R300, U19). Raised by the key
  file turn. Safe: such a run is outside the spec. -/
  | keyStoreLocked
  /-- A key file of 2^KS_WIDTH bytes or more (R8, R34, N4). Raised by the key file turn. Safe: such a key file is
  outside the spec. -/
  | keyFileTooLarge
  /-- The engine is busy with latches that hold no command. Raised by the engine turn. Safe: R110 sets BUSY only
  with a valid word latched, so no run reaches it (`Sys2Proof.Safety`). -/
  | noCommandLatched
  deriving DecidableEq, Repr

/-- Refusals: none is raised. -/
inductive Refusal where
  /-- An instruction without a meaning; no instruction of this model is one. Safe. -/
  | notModelled (mnemonic : String)
  deriving DecidableEq, Repr

/-- The all-zero hash state, which reset leaves (R32, R291). -/
def Hash.zero : Hash := { h0 := 0, h1 := 0, h2 := 0, h3 := 0, h4 := 0, h5 := 0, h6 := 0, h7 := 0 }

/-- The engine right after reset: H is zero (R32, R291); every other item is unspecified and unobservable, and the
model names zero (assumption 3). -/
def Engine.reset : Engine :=
  { h := Hash.zero
    work := { a := 0, b := 0, c := 0, d := 0, e := 0, f := 0, g := 0, h := 0 }
    w := List.replicate 64 0
    t := 0
    blk := 0
    kp := List.replicate 64 0
    ih := Hash.zero
    phase := .plain
    nLat := 0
    kLat := 0
    tLat := false
    opLat := 0 }

/-- The machine right after power-on and reset (R291, R292, V72), with the suggested parameters, nothing written to
the RAMs, an empty key store (assumption 2) and no turn listed. -/
def State.reset : State :=
  { cfg := Config.standard
    agenda := []
    rst := false
    resp := none
    busy := false
    done := false
    ovr := false
    err := .none
    otpState := .idle
    msgLen := 0
    keyLen := 0
    outLen := 0
    eng := Engine.reset
    lock := false
    mem := []
    ks := []
    ksEnv := []
    ksAsked := 0
    draws := 0
    powerOns := 0 }

end Sys2Proof.Machine
end

