-- ==== Sys2Proof/Machine/Bytes.lean ====
section
/-! DEFINITION. Byte order: big-endian words and byte strings (spec R12, R62, R178). -/

namespace Sys2Proof.Machine

/-- The word b0·2^24 + b1·2^16 + b2·2^8 + b3 (R12). -/
def wordOfBytes (b0 b1 b2 b3 : Byte) : Word :=
  BitVec.ofNat 32 (b0.toNat * 2 ^ 24 + b1.toNat * 2 ^ 16 + b2.toNat * 2 ^ 8 + b3.toNat)

/-- BE32(B, 0): the big-endian word at the head of a byte string; a byte the string lacks counts as 0, which no
64-byte block ever does (R12, assumption 21). -/
def be32 (b : List Byte) : Word := wordOfBytes (b.getD 0 0) (b.getD 1 0) (b.getD 2 0) (b.getD 3 0)

/-- BEbytes(w) = [w[31:24], w[23:16], w[15:8], w[7:0]] (R12). -/
def beBytes (w : Word) : List Byte :=
  [w.extractLsb' 24 8, w.extractLsb' 16 8, w.extractLsb' 8 8, w.extractLsb' 0 8]

/-- BE64(v), the 8-byte big-endian serialization of a 64-bit value (R12). -/
def be64 (v : BitVec 64) : List Byte := beBytes (v.extractLsb' 32 32) ++ beBytes (v.extractLsb' 0 32)

/-- The words H[0], H[1], …, H[7] in order. -/
def hashWords (h : Hash) : List Word := [h.h0, h.h1, h.h2, h.h3, h.h4, h.h5, h.h6, h.h7]

/-- Ser(H), the 32-byte big-endian form of a digest (R178). -/
def ser (h : Hash) : List Byte := (hashWords h).flatMap beBytes

/-- Byte-wise exclusive-or of two byte strings; XOR and OTP_XOR give it strings of equal length (R220,
assumption 21). -/
def xorZip (a b : List Byte) : List Byte := List.zipWith (· ^^^ ·) a b

end Sys2Proof.Machine
end

