-- ==== Sys2Proof/Machine/Sha256.lean ====
section
/-! DEFINITION. SHA-256 as a function (spec 41_message_schedule.md, 42_sha256_round.md, 43_compression_pipeline.md):
the word functions, the schedule, the round, block compression, padding and the digest of a byte stream. -/

namespace Sys2Proof.Machine

/-- ROTR^n(x), for 0 < n < 32 (R11). -/
def rotr (n : Nat) (x : Word) : Word := (x >>> n) ||| (x <<< (32 - n))

/-- SHR^n(x) (R11). -/
def shr (n : Nat) (x : Word) : Word := x >>> n

/-- σ0 (R132). -/
def smallSigma0 (x : Word) : Word := rotr 7 x ^^^ rotr 18 x ^^^ shr 3 x

/-- σ1 (R133). -/
def smallSigma1 (x : Word) : Word := rotr 17 x ^^^ rotr 19 x ^^^ shr 10 x

/-- Σ0 (R150). -/
def bigSigma0 (x : Word) : Word := rotr 2 x ^^^ rotr 13 x ^^^ rotr 22 x

/-- Σ1 (R151). -/
def bigSigma1 (x : Word) : Word := rotr 6 x ^^^ rotr 11 x ^^^ rotr 25 x

/-- Ch (R152). -/
def ch (x y z : Word) : Word := (x &&& y) ^^^ (~~~x &&& z)

/-- Maj (R153). -/
def maj (x y z : Word) : Word := (x &&& y) ^^^ (x &&& z) ^^^ (y &&& z)

/-- The round-constant table K[0..63], row by row (R155). -/
def roundConstants : List Word :=
  [0x428a2f98, 0x71374491, 0xb5c0fbcf, 0xe9b5dba5, 0x3956c25b, 0x59f111f1, 0x923f82a4, 0xab1c5ed5] ++
    [0xd807aa98, 0x12835b01, 0x243185be, 0x550c7dc3, 0x72be5d74, 0x80deb1fe, 0x9bdc06a7, 0xc19bf174] ++
    [0xe49b69c1, 0xefbe4786, 0x0fc19dc6, 0x240ca1cc, 0x2de92c6f, 0x4a7484aa, 0x5cb0a9dc, 0x76f988da] ++
    [0x983e5152, 0xa831c66d, 0xb00327c8, 0xbf597fc7, 0xc6e00bf3, 0xd5a79147, 0x06ca6351, 0x14292967] ++
    [0x27b70a85, 0x2e1b2138, 0x4d2c6dfc, 0x53380d13, 0x650a7354, 0x766a0abb, 0x81c2c92e, 0x92722c85] ++
    [0xa2bfe8a1, 0xa81a664b, 0xc24b8b70, 0xc76c51a3, 0xd192e819, 0xd6990624, 0xf40e3585, 0x106aa070] ++
    [0x19a4c116, 0x1e376c08, 0x2748774c, 0x34b0bcb5, 0x391c0cb3, 0x4ed8aa4a, 0x5b9cca4f, 0x682e6ff3] ++
    [0x748f82ee, 0x78a5636f, 0x84c87814, 0x8cc70208, 0x90befffa, 0xa4506ceb, 0xbef9a3f7, 0xc67178f2]

/-- K[t] (R155). -/
def roundConstant (t : Nat) : Word := roundConstants.getD t 0

/-- The initial hash value IV[0..7] (R170). -/
def initialHash : Hash :=
  { h0 := 0x6a09e667, h1 := 0xbb67ae85, h2 := 0x3c6ef372, h3 := 0xa54ff53a
    h4 := 0x510e527f, h5 := 0x9b05688c, h6 := 0x1f83d9ab, h7 := 0x5be0cd19 }

/-- W[t] from the schedule words before it: σ1(W[t−2]) + W[t−7] + σ0(W[t−15]) + W[t−16] (R134). -/
def scheduleWord (w : List Word) (t : Nat) : Word :=
  smallSigma1 (w.getD (t - 2) 0) + w.getD (t - 7) 0 + smallSigma0 (w.getD (t - 15) 0) + w.getD (t - 16) 0

/-- The next `count` schedule words, each from those before it (R134's second loop). -/
def scheduleExtend : Nat → List Word → List Word
  | 0, w => w
  | count + 1, w => scheduleExtend count (w ++ [scheduleWord w w.length])

/-- The first `count` words of a block: W[t] = BE32(B, 4·t) (R131). -/
def blockWords : Nat → List Byte → List Word
  | 0, _ => []
  | count + 1, b => be32 b :: blockWords count (b.drop 4)

/-- Schedule(B): the 64 schedule words of a 64-byte block (R131, R134). -/
def schedule (b : List Byte) : List Word := scheduleExtend 48 (blockWords 16 b)

/-- One round, with the constant and the schedule word it reads; every assignment takes the values from before the
round (R156). -/
def round (k wt : Word) (v : Work) : Work :=
  let t1 := v.h + bigSigma1 v.e + ch v.e v.f v.g + k + wt
  let t2 := bigSigma0 v.a + maj v.a v.b v.c
  { a := t1 + t2, b := v.a, c := v.b, d := v.c, e := v.d + t1, f := v.e, g := v.f, h := v.g }

/-- The rounds t, t + 1, … on the schedule W, `count` of them in order (R156, R157). -/
def roundsFrom (w : List Word) : Nat → Nat → Work → Work
  | _, 0, v => v
  | t, count + 1, v => roundsFrom w (t + 1) count (round (roundConstant t) (w.getD t 0) v)

/-- The working variables at the start of a block: those of the current hash state (R157). -/
def workOfHash (h : Hash) : Work :=
  { a := h.h0, b := h.h1, c := h.h2, d := h.h3, e := h.h4, f := h.h5, g := h.h6, h := h.h7 }

/-- The feed-forward: each working variable is added into the word it came from (R157). -/
def addWork (h : Hash) (v : Work) : Hash :=
  { h0 := h.h0 + v.a, h1 := h.h1 + v.b, h2 := h.h2 + v.c, h3 := h.h3 + v.d
    h4 := h.h4 + v.e, h5 := h.h5 + v.f, h6 := h.h6 + v.g, h7 := h.h7 + v.h }

/-- Compress(H, B) (R157). -/
def compress (h : Hash) (b : List Byte) : Hash :=
  addWork h (roundsFrom (schedule b) 0 64 (workOfHash h))

/-- z, the number of zero bytes of the padding: (55 − L) mod 64 (R172, R173). -/
def padZeros (len : Nat) : Nat := (119 - len % 64) % 64

/-- Pad(S) = S ‖ 0x80 ‖ zeros ‖ BE64(8·L mod 2^64) (R172, R174). -/
def pad (s : List Byte) : List Byte :=
  s ++ 0x80 :: (List.replicate (padZeros s.length) 0 ++ be64 (BitVec.ofNat 64 (8 * s.length)))

/-- N, the number of 64-byte blocks of a padded stream (R176). -/
def blockCount (m : List Byte) : Nat := m.length / 64

/-- Block j of a padded stream: M[64·j .. 64·j+64) (R177). -/
def blockAt (m : List Byte) (j : Nat) : List Byte := (m.drop (64 * j)).take 64

/-- One more block of M folded into the hash state (R176). -/
def compressBlock (m : List Byte) (h : Hash) (j : Nat) : Hash := compress h (blockAt m j)

/-- Digest(S): from IV, every block of the padded stream in order (R171, R176). -/
def digest (s : List Byte) : Hash :=
  (List.range (blockCount (pad s))).foldl (compressBlock (pad s)) initialHash

end Sys2Proof.Machine
end

