-- ==== Sys2Proof/Machine/Datapath.lean ====
section
/-! DEFINITION. The SHA-256 datapath of the engine: the function of `Sha256` carried out in the engine's own state
H, a..h, W, t and blk (spec R31, R156, R157, R171, R176). `Sys2Proof/Laws/Datapath.lean` proves that it delivers
`digest`. -/

namespace Sys2Proof.Machine

/-- The message_schedule takes a block: W ← Schedule(B); the working variables are loaded from the current H, and the
rounds start at t = 0 (R157). -/
def dpLoadBlock (b : List Byte) (e : Engine) : Engine :=
  { e with w := schedule b, work := workOfHash e.h, t := 0 }

/-- One round on W[t] and K[t]; the 6-bit round counter moves on (R31, R156). -/
def dpRound (e : Engine) : Engine :=
  { e with
    work := round (roundConstant e.t.toNat) (e.w.getD e.t.toNat 0) e.work
    t := e.t + 1 }

/-- So many rounds in order (R157). -/
def dpRounds : Nat → Engine → Engine
  | 0, e => e
  | count + 1, e => dpRounds count (dpRound e)

/-- The feed-forward into H (R157). -/
def dpFeedForward (e : Engine) : Engine := { e with h := addWork e.h e.work }

/-- One block: schedule, 64 rounds, feed-forward (R157). -/
def dpBlock (b : List Byte) (e : Engine) : Engine := dpFeedForward (dpRounds 64 (dpLoadBlock b e))

/-- Block `blk` of the padded stream M, after which blk moves on (R176). -/
def dpNextBlock (m : List Byte) (e : Engine) : Engine :=
  let e' := dpBlock (blockAt m e.blk.toNat) e
  { e' with blk := e'.blk + 1 }

/-- One digest of a byte stream: H ← IV, blk ← 0, then every block of the padded stream (R171, R176). -/
def dpDigest (s : List Byte) (e : Engine) : Engine :=
  (dpNextBlock (pad s))^[blockCount (pad s)] { e with h := initialHash, blk := 0 }

end Sys2Proof.Machine
end

