-- ==== Sys2Proof/Machine/Ops.lean ====
section
/-! DEFINITION. The shared operations: memory, the RAM windows, draws, and the two completion events, the second of
which is how every error is raised (spec R33, R61, R63, R115, R262). -/

namespace Sys2Proof.Machine

/-- The byte a memory lists for an address, if it lists one. -/
def memFind : Memory → Nat → Option Byte
  | [], _ => none
  | (k, b) :: rest, a => if k = a then some b else memFind rest a

/-- A memory after a byte is written at an address. -/
def memWrite : Memory → Nat → Byte → Memory
  | [], a, b => [(a, b)]
  | (k, c) :: rest, a, b =>
    if a < k then (a, b) :: (k, c) :: rest
    else if a = k then (a, b) :: rest
    else (k, c) :: memWrite rest a b

/-- A memory after a byte string is written at consecutive addresses. -/
def memWriteBytes : Memory → Nat → List Byte → Memory
  | m, _, [] => m
  | m, a, b :: bs => memWriteBytes (memWrite m a b) (a + 1) bs

/-- The base of a RAM window, relative to the block's own base (R61). -/
def windowBase : Window → Nat
  | .msg => 0x10000
  | .key => 0x20000
  | .out => 0x30000

/-- The block-relative address of byte `i` of a RAM (R61). -/
def ramAddr (w : Window) (i : Nat) : Nat := windowBase w + i

/-- The byte at a block-relative RAM address: what was last written there, and else its unspecified power-on content
(R33; U6, assumption 8). -/
def readByte (s : State) (a : Nat) : Byte :=
  (memFind s.mem a).getD (Config.powerOnByte s.powerOns a)

/-- The `n` bytes at consecutive block-relative addresses from `a`. -/
def readBytes (s : State) : Nat → Nat → List Byte
  | _, 0 => []
  | a, n + 1 => readByte s a :: readBytes s (a + 1) n

/-- Bytes 0 to n−1 of a RAM (R71). -/
def ramBytes (s : State) (w : Window) (n : Nat) : List Byte := readBytes s (ramAddr w 0) n

/-- A byte string written to the RAM `w` from its byte `i` on. -/
def ramWrite (w : Window) (i : Nat) (bs : List Byte) (s : State) : State :=
  { s with mem := memWriteBytes s.mem (ramAddr w i) bs }

/-- OUT[0..len) ← bytes, OUT_LEN ← len: how a command delivers its result (R115, R180, R208, R221, R236). -/
def deliver (bytes : List Byte) (len : Word) (s : State) : State :=
  { ramWrite .out 0 bytes s with outLen := len }

/-- PHASE from two free bits, all four values reachable. -/
def phaseOfBits (b1 b0 : Bool) : Phase :=
  match b1, b0 with
  | false, false => .plain
  | false, true => .keyHash
  | true, false => .inner
  | true, true => .outer

/-- Free 32-bit values with the indices d, d + 1, …, `n` of them. -/
def freeWords (d n : Nat) : List Word := (List.range n).map (fun i => Config.freeWord (d + i))

/-- Free bytes with the indices d, d + 1, …, `n` of them. -/
def freeBytes (d n : Nat) : List Byte := (List.range n).map (fun i => Config.freeByte (d + i))

/-- How many indices one unspecified scratch state takes. -/
def scratchDraws : Nat := 128

/-- The engine between commands: H as given, every other item unspecified, so a free value (R31, R291; U9,
assumption 4). -/
def engineIdle (d : Nat) (h : Hash) : Engine :=
  { h := h
    work :=
      { a := Config.freeWord d, b := Config.freeWord (d + 1), c := Config.freeWord (d + 2), d := Config.freeWord (d + 3)
        e := Config.freeWord (d + 4), f := Config.freeWord (d + 5), g := Config.freeWord (d + 6), h := Config.freeWord (d + 7) }
    w := freeWords (d + 8) 64
    t := (Config.freeWord (d + 72)).extractLsb' 0 6
    blk := Config.freeWord (d + 73)
    kp := freeBytes d 64
    ih :=
      { h0 := Config.freeWord (d + 74), h1 := Config.freeWord (d + 75), h2 := Config.freeWord (d + 76)
        h3 := Config.freeWord (d + 77), h4 := Config.freeWord (d + 78), h5 := Config.freeWord (d + 79)
        h6 := Config.freeWord (d + 80), h7 := Config.freeWord (d + 81) }
    phase := phaseOfBits (Config.freeBit d) (Config.freeBit (d + 1))
    nLat := Config.freeWord (d + 82)
    kLat := Config.freeWord (d + 83)
    tLat := Config.freeBit (d + 2)
    opLat := Config.freeByte (d + 64) }

/-- The scratch state of the command that ends becomes unspecified; H stays (R31, R116). -/
def dropScratch (s : State) : State :=
  { s with eng := engineIdle s.draws s.eng.h, draws := s.draws + scratchDraws }

/-- complete_ok, once the command has applied its results: ERR ← 0, BUSY ← 0, DONE ← 1 (R115). -/
def completeOk (s : State) : State :=
  { dropScratch s with err := .none, busy := false, done := true }

/-- complete_error, the target of every `raise Error(code)`: OUT_LEN ← 0, ERR ← code, BUSY ← 0, DONE ← 1; LOCK is
released; OTP_STATE keeps the value reached; OUT, H, KS, MSG, KEY and the length registers stay (R115, R233, R262). -/
def completeError (code : ErrCode) (s : State) : State :=
  { dropScratch s with outLen := 0, err := code, busy := false, done := true, lock := false }

/-- The operand n of the command in progress (R111). -/
def opN (s : State) : Nat := s.eng.nLat.toNat

/-- The operand k of the command in progress (R111). -/
def opK (s : State) : Nat := s.eng.kLat.toNat

end Sys2Proof.Machine
end

