-- ==== Sys2Proof/Machine/Operands.lean ====
section
/-! DEFINITION. The operands of the commands (spec R92, R111): the message and key bytes, key_padding, the pads, and the
dual_hash_mux that selects the stream the pipeline hashes (R201, R202, R205). -/

namespace Sys2Proof.Machine

/-- The message operand MSG[0..n), n as latched (R92, R111). -/
def msgBytes (s : State) : List Byte := ramBytes s .msg (opN s)

/-- The key operand KEY[0..k), k as latched (R92, R111). -/
def keyBytes (s : State) : List Byte := ramBytes s .key (opK s)

/-- A key of at most 64 bytes, or a 32-byte key digest, zero-padded to 64 bytes (R201). -/
def zeroPad64 (k : List Byte) : List Byte := k ++ List.replicate (64 - k.length) 0

/-- KeyPad(K) (R201). -/
def keyPad (k : List Byte) : List Byte :=
  if 64 < k.length then zeroPad64 (ser (digest k)) else zeroPad64 k

/-- IPAD: each byte of the padded key exclusive-or 0x36 (R202). -/
def ipad (kp : List Byte) : List Byte := kp.map (· ^^^ 0x36)

/-- OPAD: each byte of the padded key exclusive-or 0x5c (R202). -/
def opad (kp : List Byte) : List Byte := kp.map (· ^^^ 0x5c)

/-- HMAC(K, M) = Digest(OPAD ‖ Ser(Digest(IPAD ‖ M))) (R203). -/
def hmac (k m : List Byte) : Hash :=
  digest (opad (keyPad k) ++ ser (digest (ipad (keyPad k) ++ m)))

/-- The dual_hash_mux: the stream each PHASE gives the pipeline (R205). -/
def muxStream (s : State) (e : Engine) : List Byte :=
  match e.phase with
  | .plain => msgBytes s
  | .keyHash => keyBytes s
  | .inner => ipad e.kp ++ msgBytes s
  | .outer => opad e.kp ++ ser e.ih

/-- One phase of the pipeline: PHASE is set, and the stream the mux then selects is digested (R205, R206). -/
def runPhase (p : Phase) (s : State) (e : Engine) : Engine :=
  dpDigest (muxStream s { e with phase := p }) { e with phase := p }

/-- key_padding in the engine: KP ← Ser(Digest(KEY)) ‖ zeros by way of phase KEYHASH when k > 64, else KEY[0..k) ‖ zeros
(R201, R206). -/
def runKeyPad (s : State) (e : Engine) : Engine :=
  if 64 < opK s then
    let e' := runPhase .keyHash s e
    { e' with kp := zeroPad64 (ser e'.h) }
  else { e with kp := zeroPad64 (keyBytes s) }

/-- The inner hash: phase INNER, whose digest is copied to IH (R206). -/
def runInner (s : State) (e : Engine) : Engine :=
  let e' := runPhase .inner s e
  { e' with ih := e'.h }

/-- The HMAC controller: KEYHASH if k > 64, then INNER, then OUTER, whose digest H holds (R206, R208). -/
def runHmac (s : State) (e : Engine) : Engine :=
  runPhase .outer s (runInner s (runKeyPad s e))

/-- The capacity check on n, R112's first line. -/
def msgTooLong (s : State) : Bool := decide (s.cfg.bufCap < opN s)

/-- The capacity check on k, R112's second line. -/
def keyTooLong (s : State) : Bool := decide (s.cfg.bufCap < opK s)

end Sys2Proof.Machine
end

