-- ==== Sys2Proof/Machine/CommandControl.lean ====
section
/-! DEFINITION. Command control (spec 40_command_control.md): latching, acceptance and rejection of a CMD write, the
command that the latches hold, and NOP. -/

namespace Sys2Proof.Machine

/-- latch(v): n_lat ← MSG_LEN, k_lat ← KEY_LEN, T_lat ← v[8], with OP = v[7:0] beside them (R110, R111). -/
def latch (v : Word) (s : State) : State :=
  { s with eng := { s.eng with
      nLat := s.msgLen, kLat := s.keyLen, tLat := (fieldsOf v).t, opLat := (fieldsOf v).op } }

/-- What every CMD write does first when the block is not busy: DONE, ERR and OTP_STATE are cleared (R110). -/
def clearForCommand (s : State) : State := { s with done := false, err := .none, otpState := .idle }

/-- A CMD write of `v` while the block is not busy: a valid word is latched and BUSY is set; an illegal word is
rejected in full with ILLEGAL_CMD, BUSY staying 0 (R110, R95). -/
def presentCommand (v : Word) (s : State) : State :=
  match decode v with
  | .instr _ => { latch v (clearForCommand s) with busy := true }
  | .illegal _ => completeError .illegalCmd (clearForCommand s)

/-- The command word the latches hold (R110 "the command selected by v[7:0]", R111). -/
def latchedWord (e : Engine) : Word := wordOf { op := e.opLat, t := e.tLat, rsv := 0 }

/-- The command in progress, if the engine is busy with one. -/
def inProgress (s : State) : Option Instr :=
  if s.busy then (decode (latchedWord s.eng)).toOption else none

/-- NOP: completes without results (R118). -/
def execNop (s : State) : Host.Outcome State Fault Refusal := .next (completeOk s)

end Sys2Proof.Machine
end

