-- ==== Sys2Proof/Machine/Flags.lean ====
section
/-! DEFINITION. The flags: the STATUS register put together from its fields, and the write that clears OVR (spec
R22, R24, R230, R260). -/

namespace Sys2Proof.Machine

/-- The code of an error in STATUS[7:4] (R260). -/
def errBits : ErrCode → BitVec 4
  | .none => 0
  | .illegalCmd => 1
  | .capacity => 2
  | .lengthMismatch => 3
  | .keyTooShort => 4
  | .ioFailure => 5

/-- The code of a sequencer state in STATUS[9:8] (R24, R230). -/
def otpBits : OtpState → BitVec 2
  | .idle => 0
  | .reading => 1
  | .validated => 2
  | .consumed => 3

/-- The value of STATUS: OTP_STATE in bits 9:8, ERR in bits 7:4, OVR, DONE and BUSY in bits 2, 1 and 0; bit 3 and
bits 31:10 read 0 (R24). -/
def statusWord (s : State) : Word :=
  ((otpBits s.otpState).setWidth 32 <<< 8) ||| ((errBits s.err).setWidth 32 <<< 4) |||
    ((BitVec.ofBool s.ovr).setWidth 32 <<< 2) ||| ((BitVec.ofBool s.done).setWidth 32 <<< 1) |||
    (BitVec.ofBool s.busy).setWidth 32

/-- A host write of `v` to STATUS: v[2] = 1 clears OVR, every other bit is ignored (R24). -/
def writeStatus (v : Word) (s : State) : State :=
  if v.getLsbD 2 then { s with ovr := false } else s

end Sys2Proof.Machine
end

