-- ==== Sys2Proof/Machine/KeyStore.lean ====
section
/-! DEFINITION. The key store's three requests (spec R225 to R229). Each takes one answer of the environment, which
decides whether the request answers IoFail (R228). -/

namespace Sys2Proof.Machine

/-- What `KS.size()` answers (R225). -/
inductive SizeResp where
  | size (m : Nat)
  | ioFail
  deriving DecidableEq, Repr

/-- What `KS.read_tail(n)` answers (R226). -/
inductive ReadResp where
  | bytes (b : List Byte)
  | notEnoughData
  | ioFail
  deriving DecidableEq, Repr

/-- What `KS.truncate(s)` answers (R227). -/
inductive TruncResp where
  | ok
  | ioFail
  deriving DecidableEq, Repr

/-- Whether the next key-store request answers IoFail: the environment's listed answer, and a free value where none is
listed (R228; U4, assumption 10). -/
def nextIoFail (s : State) : Bool :=
  match s.ksEnv with
  | [] => Config.freeIoFail s.ksAsked
  | b :: _ => b

/-- The state after that answer is taken. -/
def takeAnswer (s : State) : State :=
  match s.ksEnv with
  | [] => { s with ksAsked := s.ksAsked + 1 }
  | _ :: rest => { s with ksEnv := rest }

/-- `KS.size()` (R225). -/
def ksSize (s : State) : SizeResp × State :=
  (if nextIoFail s then .ioFail else .size s.ks.length, takeAnswer s)

/-- The last `n` bytes of a byte string, KS[m−n .. m) in file order (R64, R226). -/
def tailBytes (n : Nat) (ks : List Byte) : List Byte := ks.drop (ks.length - n)

/-- `KS.read_tail(n)` (R226). -/
def ksReadTail (n : Nat) (s : State) : ReadResp × State :=
  (if nextIoFail s then .ioFail
   else if n ≤ s.ks.length then .bytes (tailBytes n s.ks)
   else .notEnoughData, takeAnswer s)

/-- `KS.truncate(size)`: KS ← KS[0..size) on Ok, KS unchanged on IoFail (R227). -/
def ksTruncate (size : Nat) (s : State) : TruncResp × State :=
  if nextIoFail s then (.ioFail, takeAnswer s)
  else (.ok, { takeAnswer s with ks := s.ks.take size })

end Sys2Proof.Machine
end

