-- ==== Sys2Proof/Machine/Bus.lean ====
section
/-! DEFINITION. The host bus: the address map, accesses and their legality, reads and writes of the registers and RAM
windows, while the engine is idle and while it is busy (spec R23 to R30, R60 to R70, R91, R113, R114). -/

namespace Sys2Proof.Machine

/-- What a legal access reaches: a register, one byte of a RAM, or an aligned word of a RAM, by its byte offset. -/
inductive Target where
  | reg (r : Reg)
  | byte (w : Window) (o : Nat)
  | word (w : Window) (o : Nat)
  deriving DecidableEq, Repr

/-- The registers below the digest, by their offsets; 0x01C and every other offset names none (10_state.md section 3). -/
def controlRegAt (o : Nat) : Option Reg :=
  if o = 0x000 then some .cmd
  else if o = 0x004 then some .status
  else if o = 0x008 then some .msgLen
  else if o = 0x00C then some .keyLen
  else if o = 0x010 then some .outLen
  else if o = 0x014 then some .ksSize
  else if o = 0x018 then some .bufCap
  else none

/-- The register at an offset of the register window: DIGESTi at 0x020 + 4·i for i = 0..7, and those below
(10_state.md section 3). -/
def regAt (o : Nat) : Option Reg :=
  if o % 4 = 0 ∧ 0x020 ≤ o ∧ o ≤ 0x03C then some (.digest (Fin.ofNat 8 ((o - 0x020) / 4)))
  else controlRegAt o

/-- The RAM window an address of the upper part of the map lies in (R61). -/
def windowAt (a : Nat) : Option Window :=
  if 0x10000 ≤ a ∧ a < 0x20000 then some .msg
  else if 0x20000 ≤ a ∧ a < 0x30000 then some .key
  else if 0x30000 ≤ a ∧ a < 0x40000 then some .out
  else none

/-- An access of `size` bytes at offset `o` of a RAM window: one byte below BUF_CAP, or an aligned word all of whose
bytes are below BUF_CAP (R65, R67). -/
def ramTarget (cap : Nat) (w : Window) (o size : Nat) : Option Target :=
  if size = 1 ∧ o < cap then some (.byte w o)
  else if size = 4 ∧ o % 4 = 0 ∧ o + 4 ≤ cap then some (.word w o)
  else none

/-- What an access of `size` bytes at block-relative address `a` reaches; none is a bus error (R61, R65 to R68). -/
def locate (cap : Nat) (a size : Nat) : Option Target :=
  if a < 0x10000 then
    (if size = 4 ∧ a % 4 = 0 then (regAt a).map .reg else none)
  else match windowAt a with
    | some w => ramTarget cap w (a - windowBase w) size
    | none => none

/-- The block-relative address of a bus address: the map's addresses are relative to CORE_BASE (R61, assumption 12). -/
def relAddr (c : Config) (addr : Word) : Nat := (addr - c.coreBase).toNat

/-- H[i], the word DIGESTi shows (R30). -/
def digestWord (h : Hash) (i : Fin 8) : Word := (hashWords h).getD i.val 0

/-- The big-endian word at a RAM address: BE32 (R63). -/
def readWordBE (s : State) (a : Nat) : Word := be32 (readBytes s a 4)

/-- A word a read may return freely, and the state after that draw (R114). -/
def drawWord (s : State) : Word × State := (Config.freeWord s.draws, { s with draws := s.draws + 1 })

/-- A byte a read may return freely, zero-extended (R91, R114). -/
def drawByte (s : State) : Word × State :=
  ((Config.freeByte s.draws).setWidth 32, { s with draws := s.draws + 1 })

/-- The data lines of a response to which no rule gives a value, that of a write: a free word, and for a one-byte access
a free byte zero-extended, as R91 has every one-byte response (assumption 9). -/
def freeRdata (size : Nat) (s : State) : Word × State := if size = 1 then drawByte s else drawWord s

/-- The response `(resp, rdata)` of a transaction, on the state it leaves (R91). -/
def respond (r : Resp) (a : Word × State) : State := { a.2 with resp := some { resp := r, rdata := a.1 } }

/-- The read of KS_SIZE while idle: zext_32(m), or 0xFFFF_FFFF if the size request fails (R28). -/
def readKsSize (s : State) : Word × State :=
  match ksSize s with
  | (.size m, s') => (BitVec.ofNat 32 m, s')
  | (.ioFail, s') => (0xFFFFFFFF, s')

/-- A register read: the value and the state after it (R23 to R30). DIGESTi and KS_SIZE are draws while BUSY (R114). -/
def readReg (r : Reg) (s : State) : Word × State :=
  match r with
  | .cmd => (0, s)
  | .status => (statusWord s, s)
  | .msgLen => (s.msgLen, s)
  | .keyLen => (s.keyLen, s)
  | .outLen => (s.outLen, s)
  | .ksSize => if s.busy then drawWord s else readKsSize s
  | .bufCap => (BitVec.ofNat 32 s.cfg.bufCap, s)
  | .digest i => if s.busy then drawWord s else (digestWord s.eng.h i, s)

/-- The read of one RAM byte, zero-extended; an OUT byte is a draw while BUSY (R63, R91, R114). -/
def readRamByte (w : Window) (o : Nat) (s : State) : Word × State :=
  if w = .out ∧ s.busy then drawByte s else ((readByte s (ramAddr w o)).setWidth 32, s)

/-- The read of one aligned RAM word; an OUT word is a draw while BUSY (R63, R114). -/
def readRamWord (w : Window) (o : Nat) (s : State) : Word × State :=
  if w = .out ∧ s.busy then drawWord s else (readWordBE s (ramAddr w o), s)

/-- A legal read (R69). -/
def readTarget (t : Target) (s : State) : Word × State :=
  match t with
  | .reg r => readReg r s
  | .byte w o => readRamByte w o s
  | .word w o => readRamWord w o s

/-- A write that arrives while BUSY is dropped; it sets OVR and nothing else (R113). -/
def dropWrite (s : State) : State := { s with ovr := true }

/-- A write that takes effect only while the engine is idle (R113). -/
def whenIdle (write : State → State) (s : State) : State := if s.busy then dropWrite s else write s

/-- A register write (R23 to R30, R70, R113). The read-only registers ignore it. -/
def writeReg (r : Reg) (v : Word) (s : State) : State :=
  match r with
  | .cmd => whenIdle (presentCommand v) s
  | .status => writeStatus v s
  | .msgLen => whenIdle (fun s => { s with msgLen := v }) s
  | .keyLen => whenIdle (fun s => { s with keyLen := v }) s
  | .outLen => s
  | .ksSize => s
  | .bufCap => s
  | .digest _ => s

/-- A write of bytes to a RAM: MSG and KEY take it while idle, OUT ignores it (R33, R70, R113). -/
def writeRam (w : Window) (o : Nat) (bs : List Byte) (s : State) : State :=
  match w with
  | .msg => whenIdle (ramWrite .msg o bs) s
  | .key => whenIdle (ramWrite .key o bs) s
  | .out => s

/-- A legal write; a byte write carries wdata[7:0], a word write its four bytes big-endian (R63, R91). -/
def writeTarget (t : Target) (v : Word) (s : State) : State :=
  match t with
  | .reg r => writeReg r v s
  | .byte w o => writeRam w o [v.extractLsb' 0 8] s
  | .word w o => writeRam w o (beBytes v) s

/-- A legal transaction on the target it reaches, with its OK response (R91). -/
def performTxn (x : Txn) (t : Target) (s : State) : State :=
  match x.dir with
  | .rd => respond .ok (readTarget t s)
  | .wr => respond .ok (freeRdata x.size (writeTarget t x.wdata s))

/-- The bus error response: a read returns data 0; nothing else of the machine changes (R68). -/
def busError (x : Txn) (s : State) : State :=
  match x.dir with
  | .rd => respond .busError (0, s)
  | .wr => respond .busError (freeRdata x.size s)

/-- One host bus transaction, performed whole (R69, R73, R91). -/
def busTxn (x : Txn) (s : State) : State :=
  match locate s.cfg.bufCap (relAddr s.cfg x.addr) x.size with
  | some t => performTxn x t s
  | none => busError x s

end Sys2Proof.Machine
end

