-- ==== Sys2Proof/Machine/Hashing.lean ====
section
/-! DEFINITION. The two hashing commands, SHA_DIGEST (spec R180) and HMAC (R208). -/

namespace Sys2Proof.Machine

/-- The results of a hashing command: H holds the digest, OUT[0..32) its serialization, OUT_LEN 32 (R180, R208). -/
def deliverDigest (e : Engine) (s : State) : State :=
  completeOk (deliver (ser e.h) 32 { s with eng := e })

/-- SHA_DIGEST (R180): CAPACITY if n > BUF_CAP, else the digest of MSG[0..n), by phase PLAIN. -/
def execShaDigest (s : State) : Host.Outcome State Fault Refusal :=
  if msgTooLong s then .next (completeError .capacity s)
  else .next (deliverDigest (runPhase .plain s s.eng) s)

/-- HMAC (R208): CAPACITY if n > BUF_CAP or k > BUF_CAP, else the nested hash of MSG[0..n) under KEY[0..k). -/
def execHmac (s : State) : Host.Outcome State Fault Refusal :=
  if msgTooLong s || keyTooLong s then .next (completeError .capacity s)
  else .next (deliverDigest (runHmac s s.eng) s)

end Sys2Proof.Machine
end

