-- ==== Sys2Proof/Machine/Otp.lean ====
section
/-! DEFINITION. The OTP XOR unit and the key-consumption sequencer: XOR (spec R221), OTP_XOR and OTP_XOR.T (R231, R232,
R236). -/

namespace Sys2Proof.Machine

/-- XOR (R221): CAPACITY if n > BUF_CAP or k > BUF_CAP, LENGTH_MISMATCH if k ≠ n, else OUT[0..n) is KEY[0..n) XOR
MSG[0..n). H and the key store are not touched. -/
def execXor (s : State) : Host.Outcome State Fault Refusal :=
  if msgTooLong s || keyTooLong s then .next (completeError .capacity s)
  else if opK s ≠ opN s then .next (completeError .lengthMismatch s)
  else .next (completeOk (deliver (xorZip (keyBytes s) (msgBytes s)) s.eng.nLat s))

/-- What a transition of the sequencer comes to: an error raised in the state reached, or a value and the state
reached. -/
inductive Transition (α : Type) where
  | raised (code : ErrCode) (s : State)
  | done (value : α) (s : State)
  deriving DecidableEq, Repr

/-- The read of the key tail, once the size check has passed: READING → VALIDATED's second half (R231). The value is
the key key[0..n) and the size m that `KS.size()` answered. -/
def otpReadKey (m : Nat) (s : State) : Transition (List Byte × Nat) :=
  match ksReadTail (opN s) s with
  | (.notEnoughData, s') => .raised .keyTooShort s'
  | (.ioFail, s') => .raised .ioFailure s'
  | (.bytes key, s') => .done (key, m) { s' with otpState := .validated }

/-- READING → VALIDATED (R231): IO_FAILURE if the size request fails, KEY_TOO_SHORT without a read if m < n. -/
def otpValidate (s : State) : Transition (List Byte × Nat) :=
  match ksSize s with
  | (.ioFail, s') => .raised .ioFailure s'
  | (.size m, s') => if m < opN s then .raised .keyTooShort s' else otpReadKey m s'

/-- The truncation of VALIDATED → CONSUMED, issued only with T = 1 (R229, R232). -/
def otpTruncate (truncate : Bool) (size : Nat) (s : State) : TruncResp × State :=
  if truncate then ksTruncate size s else (.ok, s)

/-- VALIDATED → CONSUMED (R232): the result is key XOR message; a failed truncation raises IO_FAILURE with OTP_STATE
still VALIDATED; else OTP_STATE is CONSUMED and LOCK is released. -/
def otpConsume (truncate : Bool) (key : List Byte) (m : Nat) (s : State) : Transition (List Byte) :=
  match otpTruncate truncate (m - opN s) s with
  | (.ioFail, s') => .raised .ioFailure s'
  | (.ok, s') => .done (xorZip key (msgBytes s)) { s' with otpState := .consumed, lock := false }

/-- The sequencer's run from READING to a completion event (R231, R232, R236). -/
def otpRun (truncate : Bool) (s : State) : State :=
  match otpValidate s with
  | .raised code s' => completeError code s'
  | .done (key, m) s' =>
    match otpConsume truncate key m s' with
    | .raised code s'' => completeError code s''
    | .done result s'' => completeOk (deliver result s''.eng.nLat s'')

/-- OTP_XOR and OTP_XOR.T (R236): CAPACITY if n > BUF_CAP, OTP_STATE staying IDLE; else OTP_STATE ← READING, LOCK ← 1,
and the sequencer runs. -/
def execOtpXor (truncate : Bool) (s : State) : Host.Outcome State Fault Refusal :=
  if msgTooLong s then .next (completeError .capacity s)
  else .next (otpRun truncate { s with otpState := .reading, lock := true })

end Sys2Proof.Machine
end

