-- ==== Sys2Proof/Machine/Dispatch.lean ====
section
/-! DEFINITION. The dispatch: one meaning per command (spec R93). -/

namespace Sys2Proof.Machine

def exec (i : Instr) (s : State) : Host.Outcome State Fault Refusal :=
  match i with
  | .nop => Sys2Proof.Machine.execNop s
  | .shaDigest => Sys2Proof.Machine.execShaDigest s
  | .hmac => Sys2Proof.Machine.execHmac s
  | .xor => Sys2Proof.Machine.execXor s
  | .otpXor truncate => Sys2Proof.Machine.execOtpXor truncate s

end Sys2Proof.Machine
end

