-- ==== Sys2Proof/Machine/Platform.lean ====
section
/-! DEFINITION. What the platform does to the machine: reset, power-on and the placing of a key file (spec R237, R290 to
R296). -/

namespace Sys2Proof.Machine

/-- How many bytes of OUT the command in progress could write: 32 for SHA_DIGEST and HMAC, n for XOR and OTP_XOR, as far
as OUT has them (R291, assumption 13). -/
def outAtRisk (s : State) : Nat :=
  match inProgress s with
  | some .shaDigest => min 32 s.cfg.bufCap
  | some .hmac => min 32 s.cfg.bufCap
  | some .xor => min (opN s) s.cfg.bufCap
  | some (.otpXor _) => min (opN s) s.cfg.bufCap
  | some .nop => 0
  | none => 0

/-- Whether an OTP_XOR.T is in progress and the truncated key store KS[0..m−n) that R237 names exists, which it does
for n ≤ m (R237, R294; U11, assumption 13). -/
def truncationAtRisk (s : State) : Bool :=
  decide (inProgress s = some (.otpXor true)) && decide (opN s ≤ s.ks.length)

/-- The key store after a reset: unchanged, or, in the middle of an OTP_XOR.T, a draw between that and KS[0..m−n) (R237,
R294, R295; U11). -/
def ksAfterReset (s : State) : List Byte :=
  if truncationAtRisk s && Config.freeBit s.draws then s.ks.take (s.ks.length - opN s) else s.ks

/-- OUT after a reset: the bytes a command in progress could write are free values, every other RAM byte is unchanged
(R291; U7). -/
def memAfterReset (s : State) : Memory :=
  memWriteBytes s.mem (ramAddr .out 0) (freeBytes s.draws (outAtRisk s))

/-- The reset of the block, one atomic event (R290, R291). The command in progress is abandoned without a completion
event. -/
def resetBlock (s : State) : State :=
  { s with
    resp := none
    busy := false
    done := false
    ovr := false
    err := .none
    otpState := .idle
    msgLen := 0
    keyLen := 0
    outLen := 0
    eng := engineIdle (s.draws + outAtRisk s + 1) Hash.zero
    lock := false
    mem := memAfterReset s
    ks := ksAfterReset s
    draws := s.draws + outAtRisk s + 1 + scratchDraws }

/-- Power-on is a reset with all RAM content unspecified (R292); `rst` is released. -/
def powerOn (s : State) : State :=
  { resetBlock s with rst := false, mem := [], powerOns := s.powerOns + 1 }

/-- The input `rst` changes: asserting it resets the block, releasing it changes nothing else (R290, R296). -/
def setRst (level : Bool) (s : State) : State :=
  if level then { resetBlock s with rst := true } else { s with rst := false }

/-- The platform places a key file in the key store, which no other agent may do while a command runs or LOCK = 1 (R34,
R235, R296; U19, assumption 11). -/
def placeKeyFile (bytes : List Byte) (s : State) : Host.Outcome State Fault Refusal :=
  if s.busy || s.lock then .fault .keyStoreLocked
  else if keyFileOk s.cfg bytes then .next { s with ks := bytes }
  else .fault .keyFileTooLarge

end Sys2Proof.Machine
end

