-- ==== Sys2Proof/Machine/Turns.lean ====
section
/-! DEFINITION. The turns of the machine's agents: the engine, the host's bus, the platform (spec R5, R14, R73, R290). -/

namespace Sys2Proof.Machine

/-- A turn of the engine. Busy, it performs the whole of the command its latches hold and completes it (R14, R110);
idle, it does nothing (R274). -/
def engineTurn (s : State) : Host.Outcome State Fault Refusal :=
  if s.busy then
    match decode (latchedWord s.eng) with
    | .instr i => exec i s
    | .illegal _ => .fault .noCommandLatched
  else .next s

/-- A turn of the host's bus. While `rst` is asserted the spec gives a transaction no step (R290). -/
def busTurn (x : Txn) (s : State) : Host.Outcome State Fault Refusal :=
  if s.rst then .fault .busDuringReset else .next (busTxn x s)

/-- One turn. -/
def turn (ev : Event) (s : State) : Host.Outcome State Fault Refusal :=
  match ev with
  | .bus x => busTurn x s
  | .engine => engineTurn s
  | .rst level => .next (setRst level s)
  | .powerOn => .next (powerOn s)
  | .keyFile bytes => placeKeyFile bytes s

/-- The command `w`, accepted as its CMD write accepts it (R110), with the engine's turn next: the machine in which the
very next step runs that command. A CMD write is how a command comes to run (R21), so this stands for the host's write
(assumption 16). -/
def acceptNext (w : Nat) (s : State) : State :=
  { presentCommand (BitVec.ofNat 32 w) s with agenda := .engine :: s.agenda }

end Sys2Proof.Machine
end

