-- ==== Sys2Proof/Machine/Step.lean ====
section
/-! DEFINITION. One step: the next turn of the agenda; with none listed, the turn is the engine's, so that an accepted
command always completes (spec R5, R117, R302). -/

namespace Sys2Proof.Machine

/-- One step of the machine. -/
def step (s : State) : Host.Outcome State Fault Refusal :=
  match s.agenda with
  | [] => turn .engine s
  | ev :: rest => turn ev { s with agenda := rest }

/-- The state whose very next step runs the command whose bits are `w`. A command is one 32-bit word (R96), so `nbits`
says nothing more. -/
def State.withFetchWord (s : State) (_nbits w : Nat) : State := acceptNext w s

end Sys2Proof.Machine
end

