-- ==== Sys2Proof/Machine/HostScript.lean ====
section
/-! DEFINITION. The host's side: the script lines and pseudo-instructions a host program is written in, what each one
puts on the bus, a host that runs a script, and the display form of a digest (spec R97, R98, R99, R179). The block sees
only the transactions. -/

namespace Sys2Proof.Machine

/-- A line of a host script (R98). -/
inductive ScriptLine where
  | wr32 (addr imm : Word)
  | wr8 (addr : Word) (imm : Byte)
  | rd32 (addr : Word) (name : String)
  | rd8 (addr : Word) (name : String)
  | label (l : String)
  | ifGoto (name : String) (bit : Nat) (value : Bool) (target : String)
  deriving DecidableEq, Repr

/-- The offset of a register in the register window (10_state.md section 3). -/
def regOffset : Reg → Nat
  | .cmd => 0x000
  | .status => 0x004
  | .msgLen => 0x008
  | .keyLen => 0x00C
  | .outLen => 0x010
  | .ksSize => 0x014
  | .bufCap => 0x018
  | .digest i => 0x020 + 4 * i.val

/-- The bus address a register's symbolic name stands for (R61, R98). -/
def regAddr (c : Config) (r : Reg) : Word := c.coreBase + BitVec.ofNat 32 (regOffset r)

/-- The bus address `MSG+i`, `KEY+i` or `OUT+i` stands for (R61, R98). -/
def ramBusAddr (c : Config) (w : Window) (i : Nat) : Word := c.coreBase + BitVec.ofNat 32 (ramAddr w i)

/-- The transaction of a script line; a label and a branch issue none (R98). -/
def lineTxn : ScriptLine → Option Txn
  | .wr32 a v => some { dir := .wr, addr := a, size := 4, wdata := v }
  | .wr8 a b => some { dir := .wr, addr := a, size := 1, wdata := b.setWidth 32 }
  | .rd32 a _ => some { dir := .rd, addr := a, size := 4, wdata := 0 }
  | .rd8 a _ => some { dir := .rd, addr := a, size := 1, wdata := 0 }
  | .label _ => none
  | .ifGoto _ _ _ _ => none

/-- `CMD <mnemonic>` (R97). -/
def scriptCmd (c : Config) (i : Instr) : ScriptLine := .wr32 (regAddr c .cmd) (encode i)

/-- `CMD RAW <imm32>` (R97). -/
def scriptRaw (c : Config) (v : Word) : ScriptLine := .wr32 (regAddr c .cmd) v

/-- `WAIT`, with the fresh label and name it is given (R99). -/
def scriptWait (c : Config) (l name : String) : List ScriptLine :=
  [.label l, .rd32 (regAddr c .status) name, .ifGoto name 0 true l]

/-- Byte writes to consecutive bytes of a RAM from byte `i` on. -/
def scriptBytes (c : Config) (w : Window) : Nat → List Byte → List ScriptLine
  | _, [] => []
  | i, b :: bs => .wr8 (ramBusAddr c w i) b :: scriptBytes c w (i + 1) bs

/-- `LOADMSG` (R99). -/
def scriptLoadMsg (c : Config) (bs : List Byte) : List ScriptLine :=
  scriptBytes c .msg 0 bs ++ [.wr32 (regAddr c .msgLen) (BitVec.ofNat 32 bs.length)]

/-- `LOADKEY` (R99). -/
def scriptLoadKey (c : Config) (bs : List Byte) : List ScriptLine :=
  scriptBytes c .key 0 bs ++ [.wr32 (regAddr c .keyLen) (BitVec.ofNat 32 bs.length)]

/-- `READOUT`, for the length L its first line reads; byte i is bound to the name `name i` (R99). -/
def scriptReadOut (c : Config) (lenName : String) (name : Nat → String) (len : Nat) : List ScriptLine :=
  .rd32 (regAddr c .outLen) lenName ::
    (List.range len).map (fun i => .rd8 (ramBusAddr c .out i) (name i))

/-- `CLROVR` (R99). -/
def scriptClrOvr (c : Config) : ScriptLine := .wr32 (regAddr c .status) 0x00000004

/-- A host that runs a script: the line it stands at and the names it has bound (R98). -/
structure HostAgent where
  script : List ScriptLine
  line : Nat
  vars : List (String × Word)
  deriving DecidableEq, Repr

/-- The name a script line binds. -/
def lineBinds : ScriptLine → Option String
  | .rd32 _ name => some name
  | .rd8 _ name => some name
  | .wr32 _ _ => none
  | .wr8 _ _ => none
  | .label _ => none
  | .ifGoto _ _ _ _ => none

/-- The host's names after a line: a read binds its rdata, whatever its resp (R98). -/
def bindRead (l : ScriptLine) (s : State) (vars : List (String × Word)) : List (String × Word) :=
  match lineBinds l, s.resp.map BusResp.rdata with
  | some name, some d => (name, d) :: vars
  | _, _ => vars

/-- The line a branch's target label names. R98 says nothing of a label that names two lines, or none: DESIGN CHOICE
(assumption 20), the first line it names, and the script's end where it names none. -/
def lineOfLabel (script : List ScriptLine) (l : String) : Nat := script.findIdx (· == .label l)

/-- Where the host goes after a line that issues no transaction (R98). R98 says nothing of a branch on a name not yet
bound, or on a bit above 31, the highest of rdata: DESIGN CHOICE (assumption 20), the first is not taken, and such a bit
counts as 0. -/
def nextLine (a : HostAgent) : ScriptLine → Nat
  | .ifGoto name bit value target =>
    match a.vars.lookup name with
    | some d => if d.getLsbD bit = value then lineOfLabel a.script target else a.line + 1
    | none => a.line + 1
  | _ => a.line + 1

/-- One turn of such a host: its line's transaction is performed, or it moves on without one; none at the script's end. -/
def hostTurn (a : HostAgent) (s : State) : Option (HostAgent × Host.Outcome State Fault Refusal) :=
  match a.script[a.line]? with
  | none => none
  | some l =>
    match lineTxn l with
    | none => some ({ a with line := nextLine a l }, .next s)
    | some x =>
      match busTurn x s with
      | .next s' => some ({ a with line := a.line + 1, vars := bindRead l s' a.vars }, .next s')
      | .fault r => some (a, .fault r)
      | .refused r => some (a, .refused r)

/-- A lowercase hexadecimal digit (R179). -/
def hexDigit (n : BitVec 4) : Char :=
  ("0123456789abcdef".toList).getD n.toNat '0'

/-- Hex(H), the 64 hexadecimal digits of Ser(H), high nibble first (R179). -/
def hexOfHash (h : Hash) : String :=
  String.ofList ((ser h).flatMap (fun b => [hexDigit (b.extractLsb' 4 4), hexDigit (b.extractLsb' 0 4)]))

end Sys2Proof.Machine
end

