-- ==== Sys2Proof/Safety.lean ====
section
/-! DEFINITION. What counts as a sound state and a sound change, in the terms the claims use: the invariant of the
machine, and the frames of commands and of bus transactions. -/

namespace Sys2Proof.Safety

open Sys2Proof.Machine

/-- A block-relative address is that of a RAM byte below BUF_CAP (spec R61). -/
def inRam (cap a : Nat) : Bool :=
  match windowAt a with
  | some w => decide (a - windowBase w < cap)
  | none => false

/-- The invariant of the machine: what every run from reset, with any legal parameters, keeps. -/
structure Inv (s : State) : Prop where
  /-- The parameters are legal (R7, R8). -/
  cfg : s.cfg.wf = true
  /-- The memory is in its canonical form. -/
  mem : Memory.wf s.mem
  /-- The memory holds RAM bytes and nothing else (R33, R61). -/
  ram : ∀ c ∈ s.mem, inRam s.cfg.bufCap c.1 = true
  /-- LOCK is 0 whenever no command is being executed (R233). -/
  lock : s.lock = false
  /-- OUT_LEN never passes the capacity of OUT (R27, R112). -/
  outLen : s.outLen.toNat ≤ s.cfg.bufCap
  /-- BUSY = 1 only with a command latched (R110). -/
  busyCommand : s.busy = true → (inProgress s).isSome = true
  /-- While BUSY = 1, DONE, ERR and OTP_STATE are as acceptance left them (R110, R115). -/
  busyFlags : s.busy = true → s.done = false ∧ s.err = .none ∧ s.otpState = .idle
  /-- Nothing is in progress while `rst` is asserted (R290). -/
  rst : s.rst = true → s.busy = false
  /-- The key store's size is below 2^KS_WIDTH (R8, R34). -/
  ks : s.ks.length < 2 ^ s.cfg.ksWidth
  /-- The schedule has 64 words (R31). -/
  schedule : s.eng.w.length = 64
  /-- The padded key has 64 bytes (R31). -/
  paddedKey : s.eng.kp.length = 64

/-- What no command changes: the parameters, the turns to come, `rst`, the last bus response, OVR, MSG_LEN, KEY_LEN and
the power-on content (R71, R116, R262). -/
structure CommandFrame (s t : State) : Prop where
  cfg : t.cfg = s.cfg
  agenda : t.agenda = s.agenda
  rst : t.rst = s.rst
  resp : t.resp = s.resp
  ovr : t.ovr = s.ovr
  msgLen : t.msgLen = s.msgLen
  keyLen : t.keyLen = s.keyLen
  powerOns : t.powerOns = s.powerOns

/-- Every RAM byte outside the `len` bytes from `lo` reads as before. -/
def SameOutside (s t : State) (lo len : Nat) : Prop :=
  ∀ a, (a < lo ∨ lo + len ≤ a) → readByte t a = readByte s a

/-- Every RAM byte reads as before. -/
def SameRam (s t : State) : Prop := ∀ a, readByte t a = readByte s a

/-- STATUS after complete_ok: ERR = NONE, BUSY = 0, DONE = 1 (R115). -/
def EndedOk (t : State) : Prop := t.err = .none ∧ t.busy = false ∧ t.done = true

/-- STATUS and OUT_LEN after complete_error, and what it leaves as it was (R115, R262). -/
structure EndedError (code : ErrCode) (s t : State) : Prop where
  err : t.err = code
  busy : t.busy = false
  done : t.done = true
  outLen : t.outLen = 0
  lock : t.lock = false
  h : t.eng.h = s.eng.h
  ks : t.ks = s.ks
  ram : SameRam s t
  frame : CommandFrame s t

/-- What a bus transaction other than an accepted or rejected CMD write never changes: everything that is not a register
the host writes, a RAM byte, the response, or an environment answer or draw that a read takes. -/
structure BusFrame (s t : State) : Prop where
  cfg : t.cfg = s.cfg
  agenda : t.agenda = s.agenda
  rst : t.rst = s.rst
  busy : t.busy = s.busy
  done : t.done = s.done
  err : t.err = s.err
  otpState : t.otpState = s.otpState
  outLen : t.outLen = s.outLen
  eng : t.eng = s.eng
  lock : t.lock = s.lock
  ks : t.ks = s.ks
  powerOns : t.powerOns = s.powerOns

/-- Whether the key-store request that follows `i` earlier ones answers IoFail, the environment's answers taken in order,
listed or free (R228). An OTP_XOR makes the requests 0 (size), 1 (read_tail) and, with T = 1, 2 (truncate) (R231, R232). -/
def requestFails (i : Nat) (s : State) : Bool := nextIoFail (takeAnswer^[i] s)

/-- The transaction that writes the 32-bit value `v` to a register (R91, R97). -/
def regWrite (c : Config) (r : Reg) (v : Word) : Txn :=
  { dir := .wr, addr := regAddr c r, size := 4, wdata := v }

/-- The transaction that reads a register (R91, R98). -/
def regRead (c : Config) (r : Reg) : Txn := { dir := .rd, addr := regAddr c r, size := 4, wdata := 0 }

/-- The transaction that writes an aligned word of a RAM (R91, R98). -/
def wordWrite (c : Config) (w : Window) (o : Nat) (v : Word) : Txn :=
  { dir := .wr, addr := ramBusAddr c w o, size := 4, wdata := v }

/-- The transaction that reads an aligned word of a RAM (R91, R98). -/
def wordRead (c : Config) (w : Window) (o : Nat) : Txn :=
  { dir := .rd, addr := ramBusAddr c w o, size := 4, wdata := 0 }

/-- The transaction that writes one byte of a RAM, for which only wdata[7:0] is used (R91, R98). -/
def byteWrite (c : Config) (w : Window) (o : Nat) (v : Word) : Txn :=
  { dir := .wr, addr := ramBusAddr c w o, size := 1, wdata := v }

/-- The transaction that reads one byte of a RAM (R91, R98). -/
def byteRead (c : Config) (w : Window) (o : Nat) : Txn :=
  { dir := .rd, addr := ramBusAddr c w o, size := 1, wdata := 0 }

end Sys2Proof.Safety
end

