-- ==== Sys2Proof/Certificates/Slice0/Obligations.lean ====
section
/-! DEFINITION. The statements for the provers. Each docstring names the rule of the spec it formalises, or says what it
is derived from. -/

open Sys2Proof Sys2Proof.Machine Sys2Proof.Safety

/-! ## Encoding -/

/-- R93: the six command words of the opcode map, each with its instruction. -/
def Obligations.TableWordsDecodeToTheirCommands : Prop :=
  decode 0x00000000 = .instr .nop ∧ decode 0x00000001 = .instr .shaDigest ∧ decode 0x00000002 = .instr .hmac ∧
  decode 0x00000003 = .instr .xor ∧ decode 0x00000004 = .instr (.otpXor false) ∧
  decode 0x00000104 = .instr (.otpXor true)

/-- R94: a word that meets the three conditions selects the row with its OP and T; every other word is illegal. -/
def Obligations.WordDecodesExactlyWhenValid : Prop :=
  ∀ v : Word,
    let valid := v.extractLsb' 9 23 = 0 ∧ v.extractLsb' 0 8 ∈ [0x00, 0x01, 0x02, 0x03, 0x04] ∧
      (v.getLsbD 8 = false ∨ v.extractLsb' 0 8 = 0x04)
    (valid → ∃ i, decode v = .instr i ∧ i.fields.op = v.extractLsb' 0 8 ∧ i.fields.t = v.getLsbD 8) ∧
    (¬ valid → ∃ e, decode v = .illegal e)

/-- Decode and encode agree, for every word and every instruction with every value of its field T (30_encoding.md
sections 1 and 3). -/
def Obligations.DecodeAndEncodeAgree : Prop :=
  ∀ (v : Word) (i : Instr), decode v = .instr i ↔ v = encode i

/-! ## Steps and turns -/

/-- A step is the next turn, on the state with that turn taken off the agenda, which is all the step adds. The engine's
turn, which also comes when no turn is listed, runs the command the latches hold, and changes nothing while the engine is
idle; a bus, `rst`, power-on or key-file turn is that turn. After R14, R73, R110, R116, R274 and R290; the agenda of turns is
the model's choice (assumption 1). -/
def Obligations.StepTakesTheNextTurnAndRunsTheLatchedCommand : Prop :=
  ∀ (s : State) (rest : List Event),
    ((s.agenda = .engine :: rest ∨ (s.agenda = [] ∧ rest = [])) →
      (∀ i, s.busy = true → decode (latchedWord s.eng) = .instr i → step s = exec i { s with agenda := rest }) ∧
      (s.busy = false → step s = .next { s with agenda := rest })) ∧
    (∀ x, s.agenda = .bus x :: rest → step s = busTurn x { s with agenda := rest }) ∧
    (∀ ev, s.agenda = ev :: rest → (ev = .rst true ∨ ev = .rst false ∨ ev = .powerOn ∨ ∃ bytes, ev = .keyFile bytes) →
      step s = turn ev { s with agenda := rest })

/-- A valid word presented to the machine runs in the very next step: the state that `withFetchWord` gives is the one a
CMD write leaves, and its next step is exec of the decoded command on it. After R21 and R110; that `withFetchWord` stands
for the host's CMD write is the model's choice (assumption 16). -/
def Obligations.PresentedWordRunsInTheNextStep : Prop :=
  ∀ (s : State) (nbits w : Nat) (i : Instr), decode (BitVec.ofNat 32 w) = .instr i →
    step (s.withFetchWord nbits w) = exec i { presentCommand (BitVec.ofNat 32 w) s with agenda := s.agenda } ∧
    decode (latchedWord (s.withFetchWord nbits w).eng) = .instr i

/-- Only an accepted CMD write starts the engine. After R274 and R110; turns come from the agenda (assumption 1). -/
def Obligations.OnlyAValidCommandWriteSetsBusy : Prop :=
  ∀ s t : State, step s = .next t → s.busy = false → t.busy = true →
    ∃ x rest i, s.agenda = .bus x :: rest ∧ x.dir = .wr ∧ x.size = 4 ∧ relAddr s.cfg x.addr = 0 ∧
      decode x.wdata = .instr i

/-- BUSY falls only at a completion event, in the engine's turn and with DONE set, or by a reset or power-on. After R115 and
R290; turns come from the agenda (assumption 1). -/
def Obligations.BusyFallsOnlyAtCompletionOrReset : Prop :=
  ∀ s t : State, step s = .next t → s.busy = true → t.busy = false →
    (t.done = true ∧ (s.agenda = [] ∨ ∃ rest, s.agenda = .engine :: rest)) ∨
    ∃ rest, s.agenda = .rst true :: rest ∨ s.agenda = .powerOn :: rest

/-- OVR keeps its value until the host clears it or a reset or power-on occurs. DONE, ERR and OTP_STATE of an idle block
keep their values until a CMD write, a reset or power-on. After R116; turns come from the agenda (assumption 1). -/
def Obligations.StatusFlagsAreStickyUntilTheirEvents : Prop :=
  ∀ s t : State, step s = .next t →
    (s.ovr = true → t.ovr = false →
      ∃ ev rest, s.agenda = ev :: rest ∧
        (ev = .rst true ∨ ev = .powerOn ∨
          ∃ x, ev = .bus x ∧ x.dir = .wr ∧ relAddr s.cfg x.addr = 0x004 ∧ x.wdata.getLsbD 2 = true)) ∧
    (s.busy = false → (t.done ≠ s.done ∨ t.err ≠ s.err ∨ t.otpState ≠ s.otpState) →
      ∃ ev rest, s.agenda = ev :: rest ∧
        (ev = .rst true ∨ ev = .powerOn ∨
          ∃ x, ev = .bus x ∧ x.dir = .wr ∧ x.size = 4 ∧ relAddr s.cfg x.addr = 0x000))

/-! ## Acceptance -/

/-- An idle block accepts a valid CMD write: DONE, ERR and OTP_STATE are cleared, MSG_LEN, KEY_LEN and T are latched, BUSY
is set with that command in progress, and nothing else changes (R110, R111). -/
def Obligations.ValidCommandWriteIsAccepted : Prop :=
  ∀ (s : State) (v : Word) (i : Instr), s.rst = false → s.busy = false → decode v = .instr i →
    ∃ t, busTurn (regWrite s.cfg .cmd v) s = .next t ∧
      t.busy = true ∧ t.done = false ∧ t.err = .none ∧ t.otpState = .idle ∧ inProgress t = some i ∧
      t.eng.nLat = s.msgLen ∧ t.eng.kLat = s.keyLen ∧ t.eng.tLat = v.getLsbD 8 ∧
      t.eng.h = s.eng.h ∧ t.outLen = s.outLen ∧ t.msgLen = s.msgLen ∧ t.keyLen = s.keyLen ∧ t.ovr = s.ovr ∧
      t.lock = s.lock ∧ t.ks = s.ks ∧ t.ksEnv = s.ksEnv ∧ SameRam s t ∧
      t.cfg = s.cfg ∧ t.agenda = s.agenda ∧ t.rst = s.rst ∧ t.resp.map BusResp.resp = some .ok

/-- An idle block rejects an illegal word in full: ERR = ILLEGAL_CMD, OUT_LEN = 0, DONE = 1, BUSY stays 0, and no other
register, no RAM byte and no byte of the key store changes (R95, R110, R262). -/
def Obligations.IllegalCommandWriteIsRejected : Prop :=
  ∀ (s : State) (v : Word) (e : DecodeError), s.rst = false → s.busy = false → decode v = .illegal e →
    ∃ t, busTurn (regWrite s.cfg .cmd v) s = .next t ∧
      t.busy = false ∧ t.done = true ∧ t.err = .illegalCmd ∧ t.otpState = .idle ∧ t.outLen = 0 ∧
      t.eng.h = s.eng.h ∧ t.msgLen = s.msgLen ∧ t.keyLen = s.keyLen ∧ t.ovr = s.ovr ∧ t.ks = s.ks ∧
      t.ksEnv = s.ksEnv ∧ SameRam s t ∧ t.cfg = s.cfg ∧ t.agenda = s.agenda ∧ t.rst = s.rst ∧
      t.resp.map BusResp.resp = some .ok

/-! ## The commands -/

/-- NOP completes without results: OUT_LEN, H, every RAM byte, the key store and OTP_STATE stay (R118). -/
def Obligations.NopCompletesWithoutResults : Prop :=
  ∀ s : State, ∃ t, exec .nop s = .next t ∧ EndedOk t ∧ CommandFrame s t ∧
    t.outLen = s.outLen ∧ t.eng.h = s.eng.h ∧ t.otpState = s.otpState ∧ t.lock = s.lock ∧
    t.ks = s.ks ∧ t.ksEnv = s.ksEnv ∧ SameRam s t

/-- SHA_DIGEST of n ≤ BUF_CAP bytes: H and OUT[0..32) hold the digest of MSG[0..n), OUT_LEN is 32, and nothing else
changes (R180, R176, R178). -/
def Obligations.ShaDigestDeliversTheDigest : Prop :=
  ∀ s : State, opN s ≤ s.cfg.bufCap →
    ∃ t, exec .shaDigest s = .next t ∧ EndedOk t ∧ CommandFrame s t ∧
      t.eng.h = digest (ramBytes s .msg (opN s)) ∧
      readBytes t (ramAddr .out 0) 32 = ser (digest (ramBytes s .msg (opN s))) ∧ t.outLen = 32 ∧
      SameOutside s t (ramAddr .out 0) 32 ∧
      t.otpState = s.otpState ∧ t.lock = s.lock ∧ t.ks = s.ks ∧ t.ksEnv = s.ksEnv

/-- HMAC with n, k ≤ BUF_CAP: H and OUT[0..32) hold Digest(OPAD ‖ Ser(Digest(IPAD ‖ MSG[0..n)))) for the padded key of
KEY[0..k), OUT_LEN is 32, and nothing else changes (R203, R208). -/
def Obligations.HmacDeliversTheNestedHash : Prop :=
  ∀ s : State, opN s ≤ s.cfg.bufCap → opK s ≤ s.cfg.bufCap →
    let kp := keyPad (ramBytes s .key (opK s))
    let d := digest (kp.map (· ^^^ 0x5c) ++ ser (digest (kp.map (· ^^^ 0x36) ++ ramBytes s .msg (opN s))))
    ∃ t, exec .hmac s = .next t ∧ EndedOk t ∧ CommandFrame s t ∧
      t.eng.h = d ∧ readBytes t (ramAddr .out 0) 32 = ser d ∧ t.outLen = 32 ∧
      SameOutside s t (ramAddr .out 0) 32 ∧
      t.otpState = s.otpState ∧ t.lock = s.lock ∧ t.ks = s.ks ∧ t.ksEnv = s.ksEnv

/-- XOR with k = n ≤ BUF_CAP: OUT[i] = KEY[i] ⊕ MSG[i] for i < n, OUT_LEN is n, and nothing else changes, H and the key
store among it (R221). -/
def Obligations.XorDeliversTheBytewiseXor : Prop :=
  ∀ s : State, opN s ≤ s.cfg.bufCap → opK s = opN s →
    ∃ t, exec .xor s = .next t ∧ EndedOk t ∧ CommandFrame s t ∧
      (∀ i, i < opN s →
        readByte t (ramAddr .out i) = readByte s (ramAddr .key i) ^^^ readByte s (ramAddr .msg i)) ∧
      t.outLen = s.eng.nLat ∧ SameOutside s t (ramAddr .out 0) (opN s) ∧
      t.eng.h = s.eng.h ∧ t.otpState = s.otpState ∧ t.lock = s.lock ∧ t.ks = s.ks ∧ t.ksEnv = s.ksEnv

/-- OTP_XOR (T = 0) with n ≤ BUF_CAP, n ≤ m and both requests answered: OUT[i] = KS[m−n+i] ⊕ MSG[i], OUT_LEN is n,
OTP_STATE is CONSUMED, LOCK is released, the key store is unchanged, and nothing else changes (R231, R232, R236). Whether a
request fails is the environment's answer (R228, assumption 10). -/
def Obligations.OtpXorUsesTheKeyTail : Prop :=
  ∀ s : State, opN s ≤ s.cfg.bufCap → opN s ≤ s.ks.length →
    requestFails 0 s = false → requestFails 1 s = false →
    ∃ t, exec (.otpXor false) s = .next t ∧ EndedOk t ∧ CommandFrame s t ∧
      (∀ i, i < opN s → readByte t (ramAddr .out i) =
        s.ks.getD (s.ks.length - opN s + i) 0 ^^^ readByte s (ramAddr .msg i)) ∧
      t.outLen = s.eng.nLat ∧ SameOutside s t (ramAddr .out 0) (opN s) ∧
      t.otpState = .consumed ∧ t.lock = false ∧ t.ks = s.ks ∧ t.ksEnv = s.ksEnv.drop 2 ∧ t.eng.h = s.eng.h

/-- OTP_XOR.T with n ≤ BUF_CAP, n ≤ m and the three requests answered: as OTP_XOR, and the key store is KS[0..m−n)
afterwards (R231, R232, R234, R236). -/
def Obligations.OtpXorTruncatingConsumesTheKeyTail : Prop :=
  ∀ s : State, opN s ≤ s.cfg.bufCap → opN s ≤ s.ks.length →
    requestFails 0 s = false → requestFails 1 s = false → requestFails 2 s = false →
    ∃ t, exec (.otpXor true) s = .next t ∧ EndedOk t ∧ CommandFrame s t ∧
      (∀ i, i < opN s → readByte t (ramAddr .out i) =
        s.ks.getD (s.ks.length - opN s + i) 0 ^^^ readByte s (ramAddr .msg i)) ∧
      t.outLen = s.eng.nLat ∧ SameOutside s t (ramAddr .out 0) (opN s) ∧
      t.otpState = .consumed ∧ t.lock = false ∧ t.ks = s.ks.take (s.ks.length - opN s) ∧
      t.ksEnv = s.ksEnv.drop 3 ∧ t.eng.h = s.eng.h

/-- Every command completes: from every state it reaches a completion event, with BUSY = 0 and DONE = 1, and leaves OVR,
MSG_LEN, KEY_LEN and the bus as they were (R115, R117). -/
def Obligations.EveryCommandReachesACompletionEvent : Prop :=
  ∀ (i : Instr) (s : State), ∃ t, exec i s = .next t ∧ t.busy = false ∧ t.done = true ∧ CommandFrame s t

/-! ## Errors -/

/-- The capacity check comes first. With n > BUF_CAP each of SHA_DIGEST, HMAC, XOR and OTP_XOR, and with k > BUF_CAP
each of HMAC and XOR, ends in CAPACITY, with no key-store request made and OTP_STATE as acceptance left it (R112). -/
def Obligations.CapacityIsCheckedFirst : Prop :=
  ∀ (s : State) (i : Instr),
    ((s.cfg.bufCap < opN s ∧ i ≠ .nop) ∨ (s.cfg.bufCap < opK s ∧ (i = .hmac ∨ i = .xor))) →
    ∃ t, exec i s = .next t ∧ EndedError .capacity s t ∧ t.otpState = s.otpState ∧ t.ksEnv = s.ksEnv

/-- XOR within capacity reports LENGTH_MISMATCH exactly when k ≠ n, with nothing written (R221, R265). -/
def Obligations.XorReportsLengthMismatch : Prop :=
  ∀ s : State, opN s ≤ s.cfg.bufCap → opK s ≤ s.cfg.bufCap →
    ∃ t, exec .xor s = .next t ∧ (t.err = .lengthMismatch ↔ opK s ≠ opN s) ∧
      (opK s ≠ opN s → EndedError .lengthMismatch s t ∧ t.otpState = s.otpState)

/-- A key store shorter than the message: KEY_TOO_SHORT after the size request alone, OTP_STATE READING, nothing written,
and no read and no truncation issued (R231, R236). -/
def Obligations.OtpXorReportsKeyTooShort : Prop :=
  ∀ (s : State) (truncate : Bool), opN s ≤ s.cfg.bufCap → s.ks.length < opN s → requestFails 0 s = false →
    ∃ t, exec (.otpXor truncate) s = .next t ∧ EndedError .keyTooShort s t ∧ t.otpState = .reading ∧
      t.ksEnv = s.ksEnv.drop 1

/-- A failed size request, or a failed read of a sufficient key: IO_FAILURE with OTP_STATE READING and nothing written
(R231, R236). -/
def Obligations.OtpXorReportsFailureBeforeTheKeyIsRead : Prop :=
  ∀ (s : State) (truncate : Bool), opN s ≤ s.cfg.bufCap →
    (requestFails 0 s = true → ∃ t, exec (.otpXor truncate) s = .next t ∧ EndedError .ioFailure s t ∧
      t.otpState = .reading ∧ t.ksEnv = s.ksEnv.drop 1) ∧
    (opN s ≤ s.ks.length → requestFails 0 s = false → requestFails 1 s = true →
      ∃ t, exec (.otpXor truncate) s = .next t ∧ EndedError .ioFailure s t ∧
        t.otpState = .reading ∧ t.ksEnv = s.ksEnv.drop 2)

/-- A failed truncation: IO_FAILURE with OTP_STATE VALIDATED, no output delivered and the key store unchanged (R227,
R232, R236). -/
def Obligations.OtpXorReportsFailedTruncation : Prop :=
  ∀ s : State, opN s ≤ s.cfg.bufCap → opN s ≤ s.ks.length →
    requestFails 0 s = false → requestFails 1 s = false → requestFails 2 s = true →
    ∃ t, exec (.otpXor true) s = .next t ∧ EndedError .ioFailure s t ∧ t.otpState = .validated ∧
      t.ksEnv = s.ksEnv.drop 3

/-- Raising an error is precise, for every command and every cause: OUT_LEN = 0, and OUT, H, MSG, KEY, MSG_LEN,
KEY_LEN and the key store are as before the command (R262). -/
def Obligations.EveryErrorIsPrecise : Prop :=
  ∀ (i : Instr) (s t : State), exec i s = .next t → t.err ≠ .none → EndedError t.err s t

/-- OTP_STATE after each command that started at IDLE, and LOCK after every completion event (R233). -/
def Obligations.OtpStateShowsHowFarTheSequencerGot : Prop :=
  ∀ (i : Instr) (s t : State), exec i s = .next t → s.otpState = .idle → s.lock = false →
    t.lock = false ∧
    ((∀ b, i ≠ .otpXor b) → t.otpState = .idle) ∧
    (∀ b, i = .otpXor b →
      (t.err = .capacity → t.otpState = .idle) ∧ (t.err = .keyTooShort → t.otpState = .reading) ∧
      (t.err = .ioFailure → t.otpState = .reading ∨ (b = true ∧ t.otpState = .validated)) ∧
      (t.err = .none → t.otpState = .consumed))

/-! ## What commands may touch -/

/-- A command that completes without error writes no RAM byte outside OUT[0..OUT_LEN) (R71). -/
def Obligations.CommandsWriteOnlyTheDeclaredResult : Prop :=
  ∀ (i : Instr) (s t : State), exec i s = .next t → t.err = .none →
    SameOutside s t (ramAddr .out 0) t.outLen.toNat

/-- SHA_DIGEST depends on n and MSG[0..n) alone, HMAC on n, k, MSG[0..n) and KEY[0..k) alone: two states that agree on
these, whatever H, OUT and every other byte hold, give the same digest and the same output (R71, R180, R208). -/
def Obligations.HashingReadsOnlyTheDeclaredOperands : Prop :=
  ∀ s s' : State, opN s ≤ s.cfg.bufCap → opN s ≤ s'.cfg.bufCap → opN s' = opN s →
    ramBytes s' .msg (opN s) = ramBytes s .msg (opN s) →
    (∃ t t', exec .shaDigest s = .next t ∧ exec .shaDigest s' = .next t' ∧ t'.eng.h = t.eng.h ∧
      readBytes t' (ramAddr .out 0) 32 = readBytes t (ramAddr .out 0) 32) ∧
    (opK s ≤ s.cfg.bufCap → opK s ≤ s'.cfg.bufCap → opK s' = opK s →
      ramBytes s' .key (opK s) = ramBytes s .key (opK s) →
      ∃ t t', exec .hmac s = .next t ∧ exec .hmac s' = .next t' ∧ t'.eng.h = t.eng.h ∧
        readBytes t' (ramAddr .out 0) 32 = readBytes t (ramAddr .out 0) 32)

/-- The operands a command reads are those standing at acceptance: a host write performed while it is in progress, of any
kind, changes none of its results (R74, R111, R113). -/
def Obligations.BusyWritesDoNotChangeTheResult : Prop :=
  ∀ (s : State) (x : Txn) (i : Instr), s.busy = true → x.dir = .wr →
    ∃ t t', exec i s = .next t ∧ exec i (busTxn x s) = .next t' ∧
      t'.err = t.err ∧ t'.outLen = t.outLen ∧ t'.eng.h = t.eng.h ∧ t'.otpState = t.otpState ∧ t'.ks = t.ks ∧
      SameRam t t'

/-- No command but a completed OTP_XOR.T changes the key store, and that one leaves KS[0..m−n) (R34, R229, R234). -/
def Obligations.OnlyATruncatingOtpXorChangesTheKeyStore : Prop :=
  ∀ (i : Instr) (s t : State), exec i s = .next t →
    (t.ks = s.ks ∨ (i = .otpXor true ∧ t.err = .none)) ∧
    (i = .otpXor true → t.err = .none →
      opN s ≤ s.ks.length ∧ t.ks = s.ks.take (s.ks.length - opN s))

/-- Whatever the turn, unless the platform places a key file, the key store afterwards is an initial part of the key store
before: no step adds or alters a key byte (R34, R227, R237, R295). -/
def Obligations.NoStepAltersAKeyByte : Prop :=
  ∀ s t : State, step s = .next t → (∀ bytes rest, s.agenda ≠ .keyFile bytes :: rest) →
    ∃ n, t.ks = s.ks.take n

/-- After an OTP_XOR.T completes, the next OTP_XOR that completes on the key store it left takes its key bytes from
positions before those already used: no key position is used twice (R234). -/
def Obligations.NoKeyPositionIsUsedTwice : Prop :=
  ∀ (s t u r : State) (b : Bool), exec (.otpXor true) s = .next t → t.err = .none → u.ks = t.ks →
    exec (.otpXor b) u = .next r → r.err = .none →
    opN s + opN u ≤ s.ks.length ∧
    (∀ i, i < opN s → readByte t (ramAddr .out i) =
      s.ks.getD (s.ks.length - opN s + i) 0 ^^^ readByte s (ramAddr .msg i)) ∧
    (∀ i, i < opN u → readByte r (ramAddr .out i) =
      s.ks.getD (s.ks.length - opN s - opN u + i) 0 ^^^ readByte u (ramAddr .msg i))

/-! ## SHA-256, HMAC and XOR as functions -/

/-- The word functions, bit by bit. R11: bit i of ROTR^n(x) is bit (i + n) mod 32 of x, and SHR fills with zeros. R132,
R133, R150, R151: bit i of each sigma is the exclusive-or of the three bits its rotations and its shift bring there. R152: Ch
takes the bit of y where x has a one, and that of z elsewhere. R153: Maj takes the bit that two of the three have. -/
def Obligations.WordFunctionsActBitByBit : Prop :=
  ∀ (x y z : Word) (i : Nat), i < 32 →
    (∀ n, 0 < n → n < 32 → (rotr n x).getLsbD i = x.getLsbD ((i + n) % 32) ∧
      (shr n x).getLsbD i = (decide (i + n < 32) && x.getLsbD (i + n))) ∧
    (smallSigma0 x).getLsbD i =
      (x.getLsbD ((i + 7) % 32) ^^ x.getLsbD ((i + 18) % 32) ^^ (decide (i + 3 < 32) && x.getLsbD (i + 3))) ∧
    (smallSigma1 x).getLsbD i =
      (x.getLsbD ((i + 17) % 32) ^^ x.getLsbD ((i + 19) % 32) ^^ (decide (i + 10 < 32) && x.getLsbD (i + 10))) ∧
    (bigSigma0 x).getLsbD i = (x.getLsbD ((i + 2) % 32) ^^ x.getLsbD ((i + 13) % 32) ^^ x.getLsbD ((i + 22) % 32)) ∧
    (bigSigma1 x).getLsbD i = (x.getLsbD ((i + 6) % 32) ^^ x.getLsbD ((i + 11) % 32) ^^ x.getLsbD ((i + 25) % 32)) ∧
    (ch x y z).getLsbD i = (if x.getLsbD i then y.getLsbD i else z.getLsbD i) ∧
    ((maj x y z).getLsbD i = true ↔
      2 ≤ (x.getLsbD i).toNat + (y.getLsbD i).toNat + (z.getLsbD i).toNat)

/-- R131, R134: the schedule of a block has 64 words, the first 16 read big-endian from the block, each later one given by
the recurrence. -/
def Obligations.ScheduleFollowsTheRecurrence : Prop :=
  ∀ b : List Byte, b.length = 64 →
    let w := fun t => (schedule b).getD t 0
    (schedule b).length = 64 ∧
    (∀ t, t < 16 → (w t).toNat = (b.getD (4 * t) 0).toNat * 2 ^ 24 + (b.getD (4 * t + 1) 0).toNat * 2 ^ 16 +
      (b.getD (4 * t + 2) 0).toNat * 2 ^ 8 + (b.getD (4 * t + 3) 0).toNat) ∧
    (∀ t, 16 ≤ t → t < 64 →
      w t = smallSigma1 (w (t - 2)) + w (t - 7) + smallSigma0 (w (t - 15)) + w (t - 16))

/-- R154, R170: the constants K[t] are the first 32 bits of the fractional parts of the cube roots of the first 64 primes,
and the words IV[i] those of the square roots of the first 8. A prime p is the (t+1)-th when t primes lie below it. -/
def Obligations.ConstantsAreTheRootsOfThePrimes : Prop :=
  ∀ p t : Nat, Nat.Prime p → Nat.count Nat.Prime p = t →
    (t < 64 → ∃ a, (a * 2 ^ 32 + (roundConstant t).toNat) ^ 3 ≤ p * 2 ^ 96 ∧
      p * 2 ^ 96 < (a * 2 ^ 32 + (roundConstant t).toNat + 1) ^ 3) ∧
    (∀ i : Fin 8, i.val = t → ∃ a, (a * 2 ^ 32 + (digestWord initialHash i).toNat) ^ 2 ≤ p * 2 ^ 64 ∧
      p * 2 ^ 64 < (a * 2 ^ 32 + (digestWord initialHash i).toNat + 1) ^ 2)

/-- Compress(H, B) is 64 rounds in order, from the working variables loaded with the current H, round t on K[t] and W[t], and
then the feed-forward (R156, R157). -/
def Obligations.CompressionRunsSixtyFourRounds : Prop :=
  ∀ (h : Hash) (b : List Byte), ∃ v : Nat → Work,
    v 0 = { a := h.h0, b := h.h1, c := h.h2, d := h.h3, e := h.h4, f := h.h5, g := h.h6, h := h.h7 } ∧
    (∀ t, t < 64 →
      let u := v t
      let t1 := u.h + bigSigma1 u.e + ch u.e u.f u.g + roundConstant t + (schedule b).getD t 0
      let t2 := bigSigma0 u.a + maj u.a u.b u.c
      v (t + 1) = { a := t1 + t2, b := u.a, c := u.b, d := u.c, e := u.d + t1, f := u.e, g := u.f, h := u.g }) ∧
    compress h b =
      { h0 := h.h0 + (v 64).a, h1 := h.h1 + (v 64).b, h2 := h.h2 + (v 64).c, h3 := h.h3 + (v 64).d
        h4 := h.h4 + (v 64).e, h5 := h.h5 + (v 64).f, h6 := h.h6 + (v 64).g, h7 := h.h7 + (v 64).h }

/-- Digest(S) starts from IV and takes the blocks of the padded stream in order, each compressed into the hash state the one
before it left (R171, R176, 90_conflicts.md C6). -/
def Obligations.DigestFoldsTheBlocksFromTheInitialHash : Prop :=
  ∀ s : List Byte, ∃ hs : Nat → Hash,
    hs 0 = { h0 := 0x6a09e667, h1 := 0xbb67ae85, h2 := 0x3c6ef372, h3 := 0xa54ff53a
             h4 := 0x510e527f, h5 := 0x9b05688c, h6 := 0x1f83d9ab, h7 := 0x5be0cd19 } ∧
    (∀ j, j < blockCount (pad s) → hs (j + 1) = compress (hs j) (blockAt (pad s) j)) ∧
    digest s = hs (blockCount (pad s))

/-- R172: the padded stream is the stream, 0x80, the least number of zero bytes that makes a multiple of 64, and the bit
length; its length is the smallest multiple of 64 that is at least L + 9. -/
def Obligations.PaddingIsTheLeastThatFits : Prop :=
  ∀ s : List Byte, ∃ z,
    pad s = s ++ [0x80] ++ List.replicate z 0 ++ be64 (BitVec.ofNat 64 (8 * s.length % 2 ^ 64)) ∧
    (s.length + 1 + z + 8) % 64 = 0 ∧ (∀ z', (s.length + 1 + z' + 8) % 64 = 0 → z ≤ z') ∧
    (pad s).length = s.length + 9 + z ∧
    (∀ p, p % 64 = 0 → s.length + 9 ≤ p → (pad s).length ≤ p)

/-- R173: the closed forms of z, P and N, and the padding's spill into a further block. -/
def Obligations.PaddingHasTheClosedForms : Prop :=
  ∀ s : List Byte,
    (padZeros s.length : Int) = (55 - (s.length : Int)) % 64 ∧ padZeros s.length ≤ 63 ∧
    (pad s).length = 64 * ((s.length + 8) / 64 + 1) ∧
    blockCount (pad s) = (s.length + 8) / 64 + 1 ∧
    (blockCount (pad s) = s.length / 64 + 2 ↔ 56 ≤ s.length % 64)

/-- R177: the blocks handed to the message_schedule have 64 bytes each and make up the padded stream in order; when the
padding spills, the last is 56 zero bytes and the length field. -/
def Obligations.BlocksMakeUpThePaddedStream : Prop :=
  ∀ s : List Byte,
    (∀ j, j < blockCount (pad s) → (blockAt (pad s) j).length = 64) ∧
    (List.range (blockCount (pad s))).flatMap (blockAt (pad s)) = pad s ∧
    (56 ≤ s.length % 64 → blockAt (pad s) (blockCount (pad s) - 1) =
      List.replicate 56 0 ++ be64 (BitVec.ofNat 64 (8 * s.length)))

/-- R12: BE32(B, i) = B[i]·2^24 + B[i+1]·2^16 + B[i+2]·2^8 + B[i+3], BEbytes(w) = [w[31:24], w[23:16], w[15:8], w[7:0]],
and BE64(v) is the 8 bytes of v from the most significant down. R178: Ser(H)[4·i + j] = H[i][31 − 8·j : 24 − 8·j], 32 bytes in
all. -/
def Obligations.ByteOrderIsBigEndian : Prop :=
  (∀ (b : List Byte) (i : Nat), i + 4 ≤ b.length →
    (be32 (b.drop i)).toNat = (b.getD i 0).toNat * 2 ^ 24 + (b.getD (i + 1) 0).toNat * 2 ^ 16 +
      (b.getD (i + 2) 0).toNat * 2 ^ 8 + (b.getD (i + 3) 0).toNat) ∧
  (∀ w : Word, (beBytes w).length = 4 ∧ ∀ j, j < 4 → (beBytes w).getD j 0 = w.extractLsb' (24 - 8 * j) 8) ∧
  (∀ v : BitVec 64, (be64 v).length = 8 ∧ ∀ j, j < 8 → (be64 v).getD j 0 = v.extractLsb' (56 - 8 * j) 8) ∧
  (∀ h : Hash, (ser h).length = 32 ∧
    ∀ (i : Fin 8) (j : Nat), j < 4 →
      (ser h).getD (4 * i.val + j) 0 = (digestWord h i).extractLsb' (24 - 8 * j) 8)

/-- R201: key_padding of a key longer than, shorter than and exactly as long as a block. -/
def Obligations.KeyPaddingHasThreeCases : Prop :=
  ∀ k : List Byte,
    (64 < k.length → keyPad k = ser (digest k) ++ List.replicate 32 0) ∧
    (k.length < 64 → keyPad k = k ++ List.replicate (64 - k.length) 0) ∧
    (k.length = 64 → keyPad k = k) ∧ (keyPad k).length = 64

/-- R222: XOR is an involution, for byte strings of equal length. -/
def Obligations.XorIsAnInvolution : Prop :=
  ∀ a b : List Byte, a.length = b.length → xorZip (xorZip a b) b = a

/-! ## The bus -/

/-- An access reaches a register or a RAM byte or word exactly when R61, R65, R66 and R67 allow it; every other access
answers a bus error, a read with data 0, and changes nothing but the response (R68). After those rules; that addresses are
taken relative to CORE_BASE modulo 2^32, and alignment judged on the relative address, is the model's choice at a base that is
not a multiple of 4 (assumption 12), and so is the free rdata of a write's response, for which the model's own count of draws
moves on (assumption 9). -/
def Obligations.IllegalAccessIsABusErrorAndChangesNothing : Prop :=
  ∀ (s : State) (x : Txn), s.rst = false → s.cfg.wf = true →
    let a := (x.addr - s.cfg.coreBase).toNat
    let legal := (x.size = 4 ∧ a % 4 = 0 ∧ (a ≤ 0x18 ∨ (0x20 ≤ a ∧ a ≤ 0x3C))) ∨
      (∃ w o, a = windowBase w + o ∧ ((x.size = 1 ∧ o < s.cfg.bufCap) ∨
        (x.size = 4 ∧ o % 4 = 0 ∧ o + 4 ≤ s.cfg.bufCap)))
    (legal → ∃ t, busTurn x s = .next t ∧ t.resp.map BusResp.resp = some .ok) ∧
    (¬ legal → ∃ (r : BusResp) (d : Nat), r.resp = .busError ∧ (x.dir = .rd → r.rdata = 0 ∧ d = s.draws) ∧
      busTurn x s = .next { s with resp := some r, draws := d })

/-- A word write to MSG or KEY stores its four bytes big-endian and changes no other RAM byte and no register; the word
read back is the word written (R63, R73). -/
def Obligations.WordWriteIsBigEndianAndReadsBack : Prop :=
  ∀ (s : State) (w : Window) (o : Nat) (v : Word), s.rst = false → s.busy = false → s.cfg.wf = true →
    w ≠ .out → o % 4 = 0 → o + 4 ≤ s.cfg.bufCap →
    ∃ t u, busTurn (wordWrite s.cfg w o v) s = .next t ∧
      readByte t (ramAddr w o) = v.extractLsb' 24 8 ∧ readByte t (ramAddr w (o + 1)) = v.extractLsb' 16 8 ∧
      readByte t (ramAddr w (o + 2)) = v.extractLsb' 8 8 ∧ readByte t (ramAddr w (o + 3)) = v.extractLsb' 0 8 ∧
      SameOutside s t (ramAddr w o) 4 ∧ BusFrame s t ∧ t.msgLen = s.msgLen ∧ t.keyLen = s.keyLen ∧ t.ovr = s.ovr ∧
      t.resp.map BusResp.resp = some .ok ∧
      busTurn (wordRead s.cfg w o) t = .next u ∧ u.resp = some { resp := .ok, rdata := v }

/-- A byte write to MSG or KEY stores wdata[7:0], changes that byte alone, and is answered OK with rdata the zero extension
of a byte; the byte read back is the byte written, zero-extended (R63, R65, R91). -/
def Obligations.ByteWriteChangesOneByteAndReadsBack : Prop :=
  ∀ (s : State) (w : Window) (o : Nat) (v : Word), s.rst = false → s.busy = false → s.cfg.wf = true →
    w ≠ .out → o < s.cfg.bufCap →
    ∃ t u, busTurn (byteWrite s.cfg w o v) s = .next t ∧
      readByte t (ramAddr w o) = v.extractLsb' 0 8 ∧ SameOutside s t (ramAddr w o) 1 ∧ BusFrame s t ∧
      t.msgLen = s.msgLen ∧ t.keyLen = s.keyLen ∧ t.ovr = s.ovr ∧
      (∃ b : Byte, t.resp = some { resp := .ok, rdata := b.setWidth 32 }) ∧
      busTurn (byteRead s.cfg w o) t = .next u ∧
      u.resp = some { resp := .ok, rdata := (v.extractLsb' 0 8).setWidth 32 }

/-- MSG_LEN and KEY_LEN are read/write: an idle block stores any 32-bit value and nothing else changes; the value reads
back (R25, R26). -/
def Obligations.LengthRegistersStoreAnyValue : Prop :=
  ∀ (s : State) (v : Word), s.rst = false → s.busy = false →
    (∃ t u, busTurn (regWrite s.cfg .msgLen v) s = .next t ∧ t.msgLen = v ∧ t.keyLen = s.keyLen ∧ t.ovr = s.ovr ∧
      SameRam s t ∧ BusFrame s t ∧
      busTurn (regRead s.cfg .msgLen) t = .next u ∧ u.resp = some { resp := .ok, rdata := v }) ∧
    (∃ t u, busTurn (regWrite s.cfg .keyLen v) s = .next t ∧ t.keyLen = v ∧ t.msgLen = s.msgLen ∧ t.ovr = s.ovr ∧
      SameRam s t ∧ BusFrame s t ∧
      busTurn (regRead s.cfg .keyLen) t = .next u ∧ u.resp = some { resp := .ok, rdata := v })

/-- Writes to OUT_LEN, KS_SIZE, BUF_CAP, DIGESTi and bytes of OUT, and a write to STATUS whose bit 2 is 0, answer OK and
change nothing, busy or idle (R70, R24). The response's rdata is free, and the model's own count of draws moves on for it
(assumption 9). -/
def Obligations.ReadOnlyLocationsIgnoreWrites : Prop :=
  ∀ (s : State) (x : Txn), s.rst = false → s.cfg.wf = true →
    ((∃ r v, x = regWrite s.cfg r v ∧ (r = .outLen ∨ r = .ksSize ∨ r = .bufCap ∨ (∃ i, r = .digest i) ∨
        (r = .status ∧ v.getLsbD 2 = false))) ∨
      (∃ o v, x = byteWrite s.cfg .out o v ∧ o < s.cfg.bufCap) ∨
      (∃ o v, x = wordWrite s.cfg .out o v ∧ o % 4 = 0 ∧ o + 4 ≤ s.cfg.bufCap)) →
    ∃ (r : BusResp) (d : Nat), r.resp = .ok ∧ busTurn x s = .next { s with resp := some r, draws := d }

/-- A write to STATUS with bit 2 set clears OVR and does nothing else, busy or idle (R24). The response's rdata is free, and the
model's own count of draws moves on for it (assumption 9). -/
def Obligations.StatusWriteClearsOverrun : Prop :=
  ∀ (s : State) (v : Word), s.rst = false → v.getLsbD 2 = true →
    ∃ (r : BusResp) (d : Nat), r.resp = .ok ∧
      busTurn (regWrite s.cfg .status v) s = .next { s with ovr := false, resp := some r, draws := d }

/-- While BUSY, a write to CMD, MSG_LEN, KEY_LEN or a MSG or KEY byte is dropped: it sets OVR, answers OK and does
nothing else (R113). The response's rdata is free, and the model's own count of draws moves on for it (assumption 9). -/
def Obligations.BusyWritesAreDroppedAndSetOverrun : Prop :=
  ∀ (s : State) (x : Txn), s.rst = false → s.busy = true → s.cfg.wf = true →
    ((∃ r v, x = regWrite s.cfg r v ∧ (r = .cmd ∨ r = .msgLen ∨ r = .keyLen)) ∨
      (∃ w o v, x = byteWrite s.cfg w o v ∧ w ≠ .out ∧ o < s.cfg.bufCap) ∨
      (∃ w o v, x = wordWrite s.cfg w o v ∧ w ≠ .out ∧ o % 4 = 0 ∧ o + 4 ≤ s.cfg.bufCap)) →
    ∃ (r : BusResp) (d : Nat), r.resp = .ok ∧ busTurn x s = .next { s with ovr := true, resp := some r, draws := d }

/-- A STATUS read shows BUSY, DONE, OVR, ERR and OTP_STATE in their bits with their codes, and 0 in the reserved bits
(R24, R230, R260). -/
def Obligations.StatusReadShowsTheFlags : Prop :=
  ∀ s : State, s.rst = false → ∃ t d, busTurn (regRead s.cfg .status) s = .next t ∧
    t = { s with resp := t.resp } ∧ t.resp = some { resp := .ok, rdata := d } ∧
    d.getLsbD 0 = s.busy ∧ d.getLsbD 1 = s.done ∧ d.getLsbD 2 = s.ovr ∧ d.getLsbD 3 = false ∧
    d.extractLsb' 10 22 = 0 ∧
    d.extractLsb' 4 4 = (match s.err with
      | .none => 0 | .illegalCmd => 1 | .capacity => 2 | .lengthMismatch => 3 | .keyTooShort => 4 | .ioFailure => 5) ∧
    d.extractLsb' 8 2 = (match s.otpState with | .idle => 0 | .reading => 1 | .validated => 2 | .consumed => 3)

/-- No read has a side effect: it changes nothing but the response and, for a KS_SIZE read or a read of DIGESTi or OUT while
BUSY, the environment answer or draw it takes; every other read, idle or busy, and every read that answers a bus error, changes
nothing but the response and, repeated, returns the same (R69, R114, 90_conflicts.md C7). -/
def Obligations.ReadsHaveNoSideEffect : Prop :=
  ∀ (s : State) (x : Txn), s.rst = false → x.dir = .rd →
    let a := relAddr s.cfg x.addr
    ∃ t, busTurn x s = .next t ∧
      t = { s with resp := t.resp, ksEnv := t.ksEnv, ksAsked := t.ksAsked, draws := t.draws } ∧
      ((a ≠ 0x014 ∧ (s.busy = true → ¬ (0x020 ≤ a ∧ a ≤ 0x03C) ∧ ¬ (0x30000 ≤ a ∧ a < 0x40000))) ∨
          t.resp.map BusResp.resp = some .busError →
        t = { s with resp := t.resp } ∧ busTurn x t = .next t)

/-- An idle KS_SIZE read makes one size request: it returns zext_32(m), or 0xFFFF_FFFF if the request fails, and the key
store is unchanged (R28). -/
def Obligations.KeyStoreSizeReadIsLive : Prop :=
  ∀ s : State, s.rst = false → s.busy = false →
    ∃ t, busTurn (regRead s.cfg .ksSize) s = .next t ∧
      t = { s with resp := t.resp, ksEnv := s.ksEnv.drop 1, ksAsked := t.ksAsked } ∧
      t.resp = some ⟨.ok, if requestFails 0 s then 0xFFFFFFFF else BitVec.ofNat 32 s.ks.length⟩

/-- The reads of stored values, which change nothing but the response. CMD reads 0, MSG_LEN, KEY_LEN, OUT_LEN and BUF_CAP
their values at any time, DIGESTi the hash-state word H[i] while idle (R23, R25, R26, R27, R29, R30, R114). A byte read of a RAM
window returns that byte zero-extended, and an aligned word read the four bytes with that of the lowest address in bits 31:24:
of MSG and KEY at any time, of OUT while idle (R63, R65, R91, R114). -/
def Obligations.ReadsReturnTheStoredValues : Prop :=
  ∀ s : State, s.rst = false →
    (∀ (r : Reg) (d : Word),
      ((r = .cmd ∧ d = 0) ∨ (r = .msgLen ∧ d = s.msgLen) ∨ (r = .keyLen ∧ d = s.keyLen) ∨
        (r = .outLen ∧ d = s.outLen) ∨ (r = .bufCap ∧ d = BitVec.ofNat 32 s.cfg.bufCap) ∨
        (s.busy = false ∧ ∃ i, r = .digest i ∧ d = (hashWords s.eng.h).getD i.val 0)) →
      busTurn (regRead s.cfg r) s = .next { s with resp := some { resp := .ok, rdata := d } }) ∧
    (∀ (w : Window) (o : Nat), s.cfg.wf = true → (w ≠ .out ∨ s.busy = false) →
      (o < s.cfg.bufCap → busTurn (byteRead s.cfg w o) s =
        .next { s with resp := some { resp := .ok, rdata := (readByte s (ramAddr w o)).setWidth 32 } }) ∧
      (o % 4 = 0 → o + 4 ≤ s.cfg.bufCap → ∃ d : Word,
        busTurn (wordRead s.cfg w o) s = .next { s with resp := some { resp := .ok, rdata := d } } ∧
        d.extractLsb' 24 8 = readByte s (ramAddr w o) ∧ d.extractLsb' 16 8 = readByte s (ramAddr w (o + 1)) ∧
        d.extractLsb' 8 8 = readByte s (ramAddr w (o + 2)) ∧ d.extractLsb' 0 8 = readByte s (ramAddr w (o + 3))))

/-- While BUSY, two states that differ in H, in the bytes of OUT and in the key store return the same to every read, so a read
reveals nothing of them. This is the model's choice: R114 makes the reads of OUT, DIGESTi and KS_SIZE draws, under no law, and
the model's draws are constants at the index of a counter (assumption 15), which a busy KS_SIZE read takes without a size request
(assumption 18). -/
def Obligations.BusyReadsRevealNoResult : Prop :=
  ∀ (s : State) (x : Txn) (m : Memory) (h : Hash) (ks : List Byte),
    s.rst = false → s.busy = true → s.cfg.wf = true → x.dir = .rd →
    (∀ a, (a < windowBase .out ∨ windowBase .out + 0x10000 ≤ a) → memFind m a = memFind s.mem a) →
    ∃ t t', busTurn x s = .next t ∧
      busTurn x { s with mem := m, eng := { s.eng with h := h }, ks := ks } = .next t' ∧ t'.resp = t.resp

/-! ## Reset and the platform -/

/-- Right after reset: STATUS, MSG_LEN, KEY_LEN, OUT_LEN and H are 0, LOCK is 0, no command is in progress, and BUF_CAP
reads its parameter, at the suggested value (R291, R293, V72). -/
def Obligations.ResetStateHoldsTheStatedValues : Prop :=
  statusWord State.reset = 0 ∧ State.reset.msgLen = 0 ∧ State.reset.keyLen = 0 ∧ State.reset.outLen = 0 ∧
  State.reset.eng.h = { h0 := 0, h1 := 0, h2 := 0, h3 := 0, h4 := 0, h5 := 0, h6 := 0, h7 := 0 } ∧
  State.reset.lock = false ∧ inProgress State.reset = none ∧ State.reset.cfg.bufCap = 4096

/-- A reset, at any moment: the registers take the values of R291, MSG and KEY RAM are unchanged, OUT is unchanged but for
the bytes a command in progress could write, and the key store is unchanged or, in the middle of an OTP_XOR.T, KS[0..m−n)
(R237, R290, R291, R294, R295). Power-on is a reset after which every RAM byte holds its unspecified power-on content (R292).
The model's choices: how that content is written down (assumption 8), that the truncated outcome needs n ≤ m (assumption 13), and
that power-on leaves `rst` released and releasing `rst` changes nothing else (assumption 14). -/
def Obligations.ResetClearsTheRegistersAndKeepsTheRams : Prop :=
  ∀ s : State,
    (∃ t, turn (.rst true) s = .next t ∧
      statusWord t = 0 ∧ t.msgLen = 0 ∧ t.keyLen = 0 ∧ t.outLen = 0 ∧ t.eng.h = Hash.zero ∧ t.lock = false ∧
      t.rst = true ∧ t.cfg = s.cfg ∧ t.agenda = s.agenda ∧
      SameOutside s t (ramAddr .out 0) (match inProgress s with
        | some .shaDigest => 32 | some .hmac => 32 | some .xor => opN s | some (.otpXor _) => opN s
        | some .nop => 0 | none => 0) ∧
      (t.ks = s.ks ∨ (inProgress s = some (.otpXor true) ∧ opN s ≤ s.ks.length ∧
        t.ks = s.ks.take (s.ks.length - opN s)))) ∧
    (∃ u, turn .powerOn s = .next u ∧
      statusWord u = 0 ∧ u.msgLen = 0 ∧ u.keyLen = 0 ∧ u.outLen = 0 ∧ u.eng.h = Hash.zero ∧ u.lock = false ∧
      u.rst = false ∧ u.cfg = s.cfg ∧ u.agenda = s.agenda ∧
      (∀ a, readByte u a = Config.powerOnByte (s.powerOns + 1) a) ∧
      (u.ks = s.ks ∨ (inProgress s = some (.otpXor true) ∧ opN s ≤ s.ks.length ∧
        u.ks = s.ks.take (s.ks.length - opN s)))) ∧
    turn (.rst false) s = .next { s with rst := false }

/-- The turns to which the spec gives no step stop, by name: a bus transaction while `rst` is asserted, and another agent's
move on the key store while a command runs or LOCK = 1. Otherwise a key file of a legal size becomes the key store and
nothing else changes (the model's choice, assumptions 11 and 14, after R34, R235, R290 and R296). -/
def Obligations.TurnsOutsideTheSpecStopByName : Prop :=
  ∀ s : State,
    (∀ x, s.rst = true → busTurn x s = .fault .busDuringReset) ∧
    (∀ bytes, (s.busy = true ∨ s.lock = true) → turn (.keyFile bytes) s = .fault .keyStoreLocked) ∧
    (∀ bytes, s.busy = false → s.lock = false → bytes.length < 2 ^ s.cfg.ksWidth →
      turn (.keyFile bytes) s = .next { s with ks := bytes })

/-! ## The invariant -/

/-- The invariant of the machine holds right after reset. -/
def Obligations.ResetStateMeetsTheInvariant : Prop := Inv State.reset

/-- Every step keeps the invariant: the memory's canonical form and bounds, LOCK = 0 between steps, OUT_LEN ≤ BUF_CAP, a
command latched whenever BUSY, the key store's bound, the legal parameters (R7, R8, R33, R34, R110, R233). -/
def Obligations.EveryStepKeepsTheInvariant : Prop :=
  ∀ s t : State, Inv s → step s = .next t → Inv t

/-- From a state that meets the invariant a step stops only where the spec gives it none: a bus transaction while `rst` is
asserted, or a key file placed while a command runs or too large (R290, R235, R8). The engine never stops. -/
def Obligations.SoundStatesStopOnlyOutsideTheSpec : Prop :=
  ∀ s : State, Inv s → (∀ x rest, s.agenda = .bus x :: rest → s.rst = false) →
    (∀ bytes rest, s.agenda = .keyFile bytes :: rest →
      s.busy = false ∧ bytes.length < 2 ^ s.cfg.ksWidth) →
    ∃ t, step s = .next t

/-! ## From the bus to the result -/

/-- A host's SHA_DIGEST: from an idle state with MSG_LEN ≤ BUF_CAP, the CMD write and then the engine's turn leave the
digest of MSG[0..MSG_LEN) in H and OUT, with DONE and no error, and a read of DIGESTi or of the i-th word of OUT then returns
its word i (R30, R63, R74, R110, R180; the two turns, assumption 1). -/
def Obligations.HostShaDigestRunsToTheResult : Prop :=
  ∀ s : State, s.rst = false → s.busy = false → s.msgLen.toNat ≤ s.cfg.bufCap →
    ∃ t u, busTurn (regWrite s.cfg .cmd 0x00000001) s = .next t ∧ engineTurn t = .next u ∧
      u.eng.h = digest (ramBytes s .msg s.msgLen.toNat) ∧
      readBytes u (ramAddr .out 0) 32 = ser (digest (ramBytes s .msg s.msgLen.toNat)) ∧
      u.outLen = 32 ∧ EndedOk u ∧ u.otpState = .idle ∧ u.ovr = s.ovr ∧
      (∀ i : Fin 8, busTurn (regRead u.cfg (.digest i)) u = .next { u with
        resp := some ⟨.ok, digestWord (digest (ramBytes s .msg s.msgLen.toNat)) i⟩ }) ∧
      (s.cfg.wf = true → ∀ i : Fin 8, busTurn (wordRead u.cfg .out (4 * i.val)) u = .next { u with
        resp := some ⟨.ok, digestWord (digest (ramBytes s .msg s.msgLen.toNat)) i⟩ })
end

