-- ==== Sys2Proof/Laws/State.lean ====
section
/-! SUPPORT. One lemma per field for each update of the state that the model names. -/

namespace Sys2Proof.Laws

open Sys2Proof.Machine

@[simp] theorem engineIdle_h (d : Nat) (h : Hash) : (engineIdle d h).h = h := rfl

@[simp] theorem engineIdle_w_length (d : Nat) (h : Hash) : (engineIdle d h).w.length = 64 := by
  simp [engineIdle, freeWords]

@[simp] theorem engineIdle_kp_length (d : Nat) (h : Hash) : (engineIdle d h).kp.length = 64 := by
  simp [engineIdle, freeBytes]

/-! ## ramWrite -/

@[simp] theorem ramWrite_cfg (w : Window) (i : Nat) (bs : List Byte) (s : State) : (ramWrite w i bs s).cfg = s.cfg := rfl
@[simp] theorem ramWrite_agenda (w : Window) (i : Nat) (bs : List Byte) (s : State) : (ramWrite w i bs s).agenda = s.agenda := rfl
@[simp] theorem ramWrite_rst (w : Window) (i : Nat) (bs : List Byte) (s : State) : (ramWrite w i bs s).rst = s.rst := rfl
@[simp] theorem ramWrite_resp (w : Window) (i : Nat) (bs : List Byte) (s : State) : (ramWrite w i bs s).resp = s.resp := rfl
@[simp] theorem ramWrite_busy (w : Window) (i : Nat) (bs : List Byte) (s : State) : (ramWrite w i bs s).busy = s.busy := rfl
@[simp] theorem ramWrite_done (w : Window) (i : Nat) (bs : List Byte) (s : State) : (ramWrite w i bs s).done = s.done := rfl
@[simp] theorem ramWrite_ovr (w : Window) (i : Nat) (bs : List Byte) (s : State) : (ramWrite w i bs s).ovr = s.ovr := rfl
@[simp] theorem ramWrite_err (w : Window) (i : Nat) (bs : List Byte) (s : State) : (ramWrite w i bs s).err = s.err := rfl
@[simp] theorem ramWrite_otpState (w : Window) (i : Nat) (bs : List Byte) (s : State) : (ramWrite w i bs s).otpState = s.otpState := rfl
@[simp] theorem ramWrite_msgLen (w : Window) (i : Nat) (bs : List Byte) (s : State) : (ramWrite w i bs s).msgLen = s.msgLen := rfl
@[simp] theorem ramWrite_keyLen (w : Window) (i : Nat) (bs : List Byte) (s : State) : (ramWrite w i bs s).keyLen = s.keyLen := rfl
@[simp] theorem ramWrite_outLen (w : Window) (i : Nat) (bs : List Byte) (s : State) : (ramWrite w i bs s).outLen = s.outLen := rfl
@[simp] theorem ramWrite_eng (w : Window) (i : Nat) (bs : List Byte) (s : State) : (ramWrite w i bs s).eng = s.eng := rfl
@[simp] theorem ramWrite_lock (w : Window) (i : Nat) (bs : List Byte) (s : State) : (ramWrite w i bs s).lock = s.lock := rfl
@[simp] theorem ramWrite_mem (w : Window) (i : Nat) (bs : List Byte) (s : State) : (ramWrite w i bs s).mem = memWriteBytes s.mem (ramAddr w i) bs := rfl
@[simp] theorem ramWrite_ks (w : Window) (i : Nat) (bs : List Byte) (s : State) : (ramWrite w i bs s).ks = s.ks := rfl
@[simp] theorem ramWrite_ksEnv (w : Window) (i : Nat) (bs : List Byte) (s : State) : (ramWrite w i bs s).ksEnv = s.ksEnv := rfl
@[simp] theorem ramWrite_ksAsked (w : Window) (i : Nat) (bs : List Byte) (s : State) : (ramWrite w i bs s).ksAsked = s.ksAsked := rfl
@[simp] theorem ramWrite_draws (w : Window) (i : Nat) (bs : List Byte) (s : State) : (ramWrite w i bs s).draws = s.draws := rfl
@[simp] theorem ramWrite_powerOns (w : Window) (i : Nat) (bs : List Byte) (s : State) : (ramWrite w i bs s).powerOns = s.powerOns := rfl

/-! ## deliver -/

@[simp] theorem deliver_cfg (bs : List Byte) (len : Word) (s : State) : (deliver bs len s).cfg = s.cfg := rfl
@[simp] theorem deliver_agenda (bs : List Byte) (len : Word) (s : State) : (deliver bs len s).agenda = s.agenda := rfl
@[simp] theorem deliver_rst (bs : List Byte) (len : Word) (s : State) : (deliver bs len s).rst = s.rst := rfl
@[simp] theorem deliver_resp (bs : List Byte) (len : Word) (s : State) : (deliver bs len s).resp = s.resp := rfl
@[simp] theorem deliver_busy (bs : List Byte) (len : Word) (s : State) : (deliver bs len s).busy = s.busy := rfl
@[simp] theorem deliver_done (bs : List Byte) (len : Word) (s : State) : (deliver bs len s).done = s.done := rfl
@[simp] theorem deliver_ovr (bs : List Byte) (len : Word) (s : State) : (deliver bs len s).ovr = s.ovr := rfl
@[simp] theorem deliver_err (bs : List Byte) (len : Word) (s : State) : (deliver bs len s).err = s.err := rfl
@[simp] theorem deliver_otpState (bs : List Byte) (len : Word) (s : State) : (deliver bs len s).otpState = s.otpState := rfl
@[simp] theorem deliver_msgLen (bs : List Byte) (len : Word) (s : State) : (deliver bs len s).msgLen = s.msgLen := rfl
@[simp] theorem deliver_keyLen (bs : List Byte) (len : Word) (s : State) : (deliver bs len s).keyLen = s.keyLen := rfl
@[simp] theorem deliver_outLen (bs : List Byte) (len : Word) (s : State) : (deliver bs len s).outLen = len := rfl
@[simp] theorem deliver_eng (bs : List Byte) (len : Word) (s : State) : (deliver bs len s).eng = s.eng := rfl
@[simp] theorem deliver_lock (bs : List Byte) (len : Word) (s : State) : (deliver bs len s).lock = s.lock := rfl
@[simp] theorem deliver_mem (bs : List Byte) (len : Word) (s : State) : (deliver bs len s).mem = memWriteBytes s.mem (ramAddr .out 0) bs := rfl
@[simp] theorem deliver_ks (bs : List Byte) (len : Word) (s : State) : (deliver bs len s).ks = s.ks := rfl
@[simp] theorem deliver_ksEnv (bs : List Byte) (len : Word) (s : State) : (deliver bs len s).ksEnv = s.ksEnv := rfl
@[simp] theorem deliver_ksAsked (bs : List Byte) (len : Word) (s : State) : (deliver bs len s).ksAsked = s.ksAsked := rfl
@[simp] theorem deliver_draws (bs : List Byte) (len : Word) (s : State) : (deliver bs len s).draws = s.draws := rfl
@[simp] theorem deliver_powerOns (bs : List Byte) (len : Word) (s : State) : (deliver bs len s).powerOns = s.powerOns := rfl

/-! ## dropScratch -/

@[simp] theorem dropScratch_cfg (s : State) : (dropScratch s).cfg = s.cfg := rfl
@[simp] theorem dropScratch_agenda (s : State) : (dropScratch s).agenda = s.agenda := rfl
@[simp] theorem dropScratch_rst (s : State) : (dropScratch s).rst = s.rst := rfl
@[simp] theorem dropScratch_resp (s : State) : (dropScratch s).resp = s.resp := rfl
@[simp] theorem dropScratch_busy (s : State) : (dropScratch s).busy = s.busy := rfl
@[simp] theorem dropScratch_done (s : State) : (dropScratch s).done = s.done := rfl
@[simp] theorem dropScratch_ovr (s : State) : (dropScratch s).ovr = s.ovr := rfl
@[simp] theorem dropScratch_err (s : State) : (dropScratch s).err = s.err := rfl
@[simp] theorem dropScratch_otpState (s : State) : (dropScratch s).otpState = s.otpState := rfl
@[simp] theorem dropScratch_msgLen (s : State) : (dropScratch s).msgLen = s.msgLen := rfl
@[simp] theorem dropScratch_keyLen (s : State) : (dropScratch s).keyLen = s.keyLen := rfl
@[simp] theorem dropScratch_outLen (s : State) : (dropScratch s).outLen = s.outLen := rfl
@[simp] theorem dropScratch_eng (s : State) : (dropScratch s).eng = engineIdle s.draws s.eng.h := rfl
@[simp] theorem dropScratch_lock (s : State) : (dropScratch s).lock = s.lock := rfl
@[simp] theorem dropScratch_mem (s : State) : (dropScratch s).mem = s.mem := rfl
@[simp] theorem dropScratch_ks (s : State) : (dropScratch s).ks = s.ks := rfl
@[simp] theorem dropScratch_ksEnv (s : State) : (dropScratch s).ksEnv = s.ksEnv := rfl
@[simp] theorem dropScratch_ksAsked (s : State) : (dropScratch s).ksAsked = s.ksAsked := rfl
@[simp] theorem dropScratch_draws (s : State) : (dropScratch s).draws = s.draws + scratchDraws := rfl
@[simp] theorem dropScratch_powerOns (s : State) : (dropScratch s).powerOns = s.powerOns := rfl

/-! ## completeOk -/

@[simp] theorem completeOk_cfg (s : State) : (completeOk s).cfg = s.cfg := rfl
@[simp] theorem completeOk_agenda (s : State) : (completeOk s).agenda = s.agenda := rfl
@[simp] theorem completeOk_rst (s : State) : (completeOk s).rst = s.rst := rfl
@[simp] theorem completeOk_resp (s : State) : (completeOk s).resp = s.resp := rfl
@[simp] theorem completeOk_busy (s : State) : (completeOk s).busy = false := rfl
@[simp] theorem completeOk_done (s : State) : (completeOk s).done = true := rfl
@[simp] theorem completeOk_ovr (s : State) : (completeOk s).ovr = s.ovr := rfl
@[simp] theorem completeOk_err (s : State) : (completeOk s).err = .none := rfl
@[simp] theorem completeOk_otpState (s : State) : (completeOk s).otpState = s.otpState := rfl
@[simp] theorem completeOk_msgLen (s : State) : (completeOk s).msgLen = s.msgLen := rfl
@[simp] theorem completeOk_keyLen (s : State) : (completeOk s).keyLen = s.keyLen := rfl
@[simp] theorem completeOk_outLen (s : State) : (completeOk s).outLen = s.outLen := rfl
@[simp] theorem completeOk_eng (s : State) : (completeOk s).eng = engineIdle s.draws s.eng.h := rfl
@[simp] theorem completeOk_lock (s : State) : (completeOk s).lock = s.lock := rfl
@[simp] theorem completeOk_mem (s : State) : (completeOk s).mem = s.mem := rfl
@[simp] theorem completeOk_ks (s : State) : (completeOk s).ks = s.ks := rfl
@[simp] theorem completeOk_ksEnv (s : State) : (completeOk s).ksEnv = s.ksEnv := rfl
@[simp] theorem completeOk_ksAsked (s : State) : (completeOk s).ksAsked = s.ksAsked := rfl
@[simp] theorem completeOk_draws (s : State) : (completeOk s).draws = s.draws + scratchDraws := rfl
@[simp] theorem completeOk_powerOns (s : State) : (completeOk s).powerOns = s.powerOns := rfl

/-! ## completeError -/

@[simp] theorem completeError_cfg (c : ErrCode) (s : State) : (completeError c s).cfg = s.cfg := rfl
@[simp] theorem completeError_agenda (c : ErrCode) (s : State) : (completeError c s).agenda = s.agenda := rfl
@[simp] theorem completeError_rst (c : ErrCode) (s : State) : (completeError c s).rst = s.rst := rfl
@[simp] theorem completeError_resp (c : ErrCode) (s : State) : (completeError c s).resp = s.resp := rfl
@[simp] theorem completeError_busy (c : ErrCode) (s : State) : (completeError c s).busy = false := rfl
@[simp] theorem completeError_done (c : ErrCode) (s : State) : (completeError c s).done = true := rfl
@[simp] theorem completeError_ovr (c : ErrCode) (s : State) : (completeError c s).ovr = s.ovr := rfl
@[simp] theorem completeError_err (c : ErrCode) (s : State) : (completeError c s).err = c := rfl
@[simp] theorem completeError_otpState (c : ErrCode) (s : State) : (completeError c s).otpState = s.otpState := rfl
@[simp] theorem completeError_msgLen (c : ErrCode) (s : State) : (completeError c s).msgLen = s.msgLen := rfl
@[simp] theorem completeError_keyLen (c : ErrCode) (s : State) : (completeError c s).keyLen = s.keyLen := rfl
@[simp] theorem completeError_outLen (c : ErrCode) (s : State) : (completeError c s).outLen = 0 := rfl
@[simp] theorem completeError_eng (c : ErrCode) (s : State) : (completeError c s).eng = engineIdle s.draws s.eng.h := rfl
@[simp] theorem completeError_lock (c : ErrCode) (s : State) : (completeError c s).lock = false := rfl
@[simp] theorem completeError_mem (c : ErrCode) (s : State) : (completeError c s).mem = s.mem := rfl
@[simp] theorem completeError_ks (c : ErrCode) (s : State) : (completeError c s).ks = s.ks := rfl
@[simp] theorem completeError_ksEnv (c : ErrCode) (s : State) : (completeError c s).ksEnv = s.ksEnv := rfl
@[simp] theorem completeError_ksAsked (c : ErrCode) (s : State) : (completeError c s).ksAsked = s.ksAsked := rfl
@[simp] theorem completeError_draws (c : ErrCode) (s : State) : (completeError c s).draws = s.draws + scratchDraws := rfl
@[simp] theorem completeError_powerOns (c : ErrCode) (s : State) : (completeError c s).powerOns = s.powerOns := rfl

/-! ## clearForCommand -/

@[simp] theorem clearForCommand_cfg (s : State) : (clearForCommand s).cfg = s.cfg := rfl
@[simp] theorem clearForCommand_agenda (s : State) : (clearForCommand s).agenda = s.agenda := rfl
@[simp] theorem clearForCommand_rst (s : State) : (clearForCommand s).rst = s.rst := rfl
@[simp] theorem clearForCommand_resp (s : State) : (clearForCommand s).resp = s.resp := rfl
@[simp] theorem clearForCommand_busy (s : State) : (clearForCommand s).busy = s.busy := rfl
@[simp] theorem clearForCommand_done (s : State) : (clearForCommand s).done = false := rfl
@[simp] theorem clearForCommand_ovr (s : State) : (clearForCommand s).ovr = s.ovr := rfl
@[simp] theorem clearForCommand_err (s : State) : (clearForCommand s).err = .none := rfl
@[simp] theorem clearForCommand_otpState (s : State) : (clearForCommand s).otpState = .idle := rfl
@[simp] theorem clearForCommand_msgLen (s : State) : (clearForCommand s).msgLen = s.msgLen := rfl
@[simp] theorem clearForCommand_keyLen (s : State) : (clearForCommand s).keyLen = s.keyLen := rfl
@[simp] theorem clearForCommand_outLen (s : State) : (clearForCommand s).outLen = s.outLen := rfl
@[simp] theorem clearForCommand_eng (s : State) : (clearForCommand s).eng = s.eng := rfl
@[simp] theorem clearForCommand_lock (s : State) : (clearForCommand s).lock = s.lock := rfl
@[simp] theorem clearForCommand_mem (s : State) : (clearForCommand s).mem = s.mem := rfl
@[simp] theorem clearForCommand_ks (s : State) : (clearForCommand s).ks = s.ks := rfl
@[simp] theorem clearForCommand_ksEnv (s : State) : (clearForCommand s).ksEnv = s.ksEnv := rfl
@[simp] theorem clearForCommand_ksAsked (s : State) : (clearForCommand s).ksAsked = s.ksAsked := rfl
@[simp] theorem clearForCommand_draws (s : State) : (clearForCommand s).draws = s.draws := rfl
@[simp] theorem clearForCommand_powerOns (s : State) : (clearForCommand s).powerOns = s.powerOns := rfl

/-! ## dropWrite -/

@[simp] theorem dropWrite_cfg (s : State) : (dropWrite s).cfg = s.cfg := rfl
@[simp] theorem dropWrite_agenda (s : State) : (dropWrite s).agenda = s.agenda := rfl
@[simp] theorem dropWrite_rst (s : State) : (dropWrite s).rst = s.rst := rfl
@[simp] theorem dropWrite_resp (s : State) : (dropWrite s).resp = s.resp := rfl
@[simp] theorem dropWrite_busy (s : State) : (dropWrite s).busy = s.busy := rfl
@[simp] theorem dropWrite_done (s : State) : (dropWrite s).done = s.done := rfl
@[simp] theorem dropWrite_ovr (s : State) : (dropWrite s).ovr = true := rfl
@[simp] theorem dropWrite_err (s : State) : (dropWrite s).err = s.err := rfl
@[simp] theorem dropWrite_otpState (s : State) : (dropWrite s).otpState = s.otpState := rfl
@[simp] theorem dropWrite_msgLen (s : State) : (dropWrite s).msgLen = s.msgLen := rfl
@[simp] theorem dropWrite_keyLen (s : State) : (dropWrite s).keyLen = s.keyLen := rfl
@[simp] theorem dropWrite_outLen (s : State) : (dropWrite s).outLen = s.outLen := rfl
@[simp] theorem dropWrite_eng (s : State) : (dropWrite s).eng = s.eng := rfl
@[simp] theorem dropWrite_lock (s : State) : (dropWrite s).lock = s.lock := rfl
@[simp] theorem dropWrite_mem (s : State) : (dropWrite s).mem = s.mem := rfl
@[simp] theorem dropWrite_ks (s : State) : (dropWrite s).ks = s.ks := rfl
@[simp] theorem dropWrite_ksEnv (s : State) : (dropWrite s).ksEnv = s.ksEnv := rfl
@[simp] theorem dropWrite_ksAsked (s : State) : (dropWrite s).ksAsked = s.ksAsked := rfl
@[simp] theorem dropWrite_draws (s : State) : (dropWrite s).draws = s.draws := rfl
@[simp] theorem dropWrite_powerOns (s : State) : (dropWrite s).powerOns = s.powerOns := rfl

/-! ## latch -/

@[simp] theorem latch_cfg (v : Word) (s : State) : (latch v s).cfg = s.cfg := rfl
@[simp] theorem latch_agenda (v : Word) (s : State) : (latch v s).agenda = s.agenda := rfl
@[simp] theorem latch_rst (v : Word) (s : State) : (latch v s).rst = s.rst := rfl
@[simp] theorem latch_resp (v : Word) (s : State) : (latch v s).resp = s.resp := rfl
@[simp] theorem latch_busy (v : Word) (s : State) : (latch v s).busy = s.busy := rfl
@[simp] theorem latch_done (v : Word) (s : State) : (latch v s).done = s.done := rfl
@[simp] theorem latch_ovr (v : Word) (s : State) : (latch v s).ovr = s.ovr := rfl
@[simp] theorem latch_err (v : Word) (s : State) : (latch v s).err = s.err := rfl
@[simp] theorem latch_otpState (v : Word) (s : State) : (latch v s).otpState = s.otpState := rfl
@[simp] theorem latch_msgLen (v : Word) (s : State) : (latch v s).msgLen = s.msgLen := rfl
@[simp] theorem latch_keyLen (v : Word) (s : State) : (latch v s).keyLen = s.keyLen := rfl
@[simp] theorem latch_outLen (v : Word) (s : State) : (latch v s).outLen = s.outLen := rfl
@[simp] theorem latch_eng (v : Word) (s : State) : (latch v s).eng =
    { s.eng with nLat := s.msgLen, kLat := s.keyLen, tLat := (fieldsOf v).t, opLat := (fieldsOf v).op } := rfl
@[simp] theorem latch_lock (v : Word) (s : State) : (latch v s).lock = s.lock := rfl
@[simp] theorem latch_mem (v : Word) (s : State) : (latch v s).mem = s.mem := rfl
@[simp] theorem latch_ks (v : Word) (s : State) : (latch v s).ks = s.ks := rfl
@[simp] theorem latch_ksEnv (v : Word) (s : State) : (latch v s).ksEnv = s.ksEnv := rfl
@[simp] theorem latch_ksAsked (v : Word) (s : State) : (latch v s).ksAsked = s.ksAsked := rfl
@[simp] theorem latch_draws (v : Word) (s : State) : (latch v s).draws = s.draws := rfl
@[simp] theorem latch_powerOns (v : Word) (s : State) : (latch v s).powerOns = s.powerOns := rfl

/-! ## takeAnswer -/

@[simp] theorem takeAnswer_cfg (s : State) : (takeAnswer s).cfg = s.cfg := by unfold takeAnswer; split <;> rfl
@[simp] theorem takeAnswer_agenda (s : State) : (takeAnswer s).agenda = s.agenda := by unfold takeAnswer; split <;> rfl
@[simp] theorem takeAnswer_rst (s : State) : (takeAnswer s).rst = s.rst := by unfold takeAnswer; split <;> rfl
@[simp] theorem takeAnswer_resp (s : State) : (takeAnswer s).resp = s.resp := by unfold takeAnswer; split <;> rfl
@[simp] theorem takeAnswer_busy (s : State) : (takeAnswer s).busy = s.busy := by unfold takeAnswer; split <;> rfl
@[simp] theorem takeAnswer_done (s : State) : (takeAnswer s).done = s.done := by unfold takeAnswer; split <;> rfl
@[simp] theorem takeAnswer_ovr (s : State) : (takeAnswer s).ovr = s.ovr := by unfold takeAnswer; split <;> rfl
@[simp] theorem takeAnswer_err (s : State) : (takeAnswer s).err = s.err := by unfold takeAnswer; split <;> rfl
@[simp] theorem takeAnswer_otpState (s : State) : (takeAnswer s).otpState = s.otpState := by unfold takeAnswer; split <;> rfl
@[simp] theorem takeAnswer_msgLen (s : State) : (takeAnswer s).msgLen = s.msgLen := by unfold takeAnswer; split <;> rfl
@[simp] theorem takeAnswer_keyLen (s : State) : (takeAnswer s).keyLen = s.keyLen := by unfold takeAnswer; split <;> rfl
@[simp] theorem takeAnswer_outLen (s : State) : (takeAnswer s).outLen = s.outLen := by unfold takeAnswer; split <;> rfl
@[simp] theorem takeAnswer_eng (s : State) : (takeAnswer s).eng = s.eng := by unfold takeAnswer; split <;> rfl
@[simp] theorem takeAnswer_lock (s : State) : (takeAnswer s).lock = s.lock := by unfold takeAnswer; split <;> rfl
@[simp] theorem takeAnswer_mem (s : State) : (takeAnswer s).mem = s.mem := by unfold takeAnswer; split <;> rfl
@[simp] theorem takeAnswer_ks (s : State) : (takeAnswer s).ks = s.ks := by unfold takeAnswer; split <;> rfl
@[simp] theorem takeAnswer_draws (s : State) : (takeAnswer s).draws = s.draws := by unfold takeAnswer; split <;> rfl
@[simp] theorem takeAnswer_powerOns (s : State) : (takeAnswer s).powerOns = s.powerOns := by unfold takeAnswer; split <;> rfl

/-- What a request's answer changes: the list of answers and the count of free ones. -/
theorem takeAnswer_eq (s : State) :
    takeAnswer s = { s with ksEnv := (takeAnswer s).ksEnv, ksAsked := (takeAnswer s).ksAsked } := by
  unfold takeAnswer; split <;> rfl

/-- A listed answer is the one a request gets, and it is taken from the list. -/
theorem takeAnswer_of_ksEnv_cons (s : State) (b : Bool) (rest : List Bool) (h : s.ksEnv = b :: rest) :
    nextIoFail s = b ∧ takeAnswer s = { s with ksEnv := rest } := by
  unfold nextIoFail takeAnswer; simp [h]

/-! ## respond and freeRdata -/

@[simp] theorem respond_resp (r : Resp) (a : Word × State) : (respond r a).resp = some { resp := r, rdata := a.1 } := rfl
@[simp] theorem respond_cfg (r : Resp) (a : Word × State) : (respond r a).cfg = a.2.cfg := rfl
@[simp] theorem respond_agenda (r : Resp) (a : Word × State) : (respond r a).agenda = a.2.agenda := rfl
@[simp] theorem respond_rst (r : Resp) (a : Word × State) : (respond r a).rst = a.2.rst := rfl
@[simp] theorem respond_busy (r : Resp) (a : Word × State) : (respond r a).busy = a.2.busy := rfl
@[simp] theorem respond_done (r : Resp) (a : Word × State) : (respond r a).done = a.2.done := rfl
@[simp] theorem respond_ovr (r : Resp) (a : Word × State) : (respond r a).ovr = a.2.ovr := rfl
@[simp] theorem respond_err (r : Resp) (a : Word × State) : (respond r a).err = a.2.err := rfl
@[simp] theorem respond_otpState (r : Resp) (a : Word × State) : (respond r a).otpState = a.2.otpState := rfl
@[simp] theorem respond_msgLen (r : Resp) (a : Word × State) : (respond r a).msgLen = a.2.msgLen := rfl
@[simp] theorem respond_keyLen (r : Resp) (a : Word × State) : (respond r a).keyLen = a.2.keyLen := rfl
@[simp] theorem respond_outLen (r : Resp) (a : Word × State) : (respond r a).outLen = a.2.outLen := rfl
@[simp] theorem respond_eng (r : Resp) (a : Word × State) : (respond r a).eng = a.2.eng := rfl
@[simp] theorem respond_lock (r : Resp) (a : Word × State) : (respond r a).lock = a.2.lock := rfl
@[simp] theorem respond_mem (r : Resp) (a : Word × State) : (respond r a).mem = a.2.mem := rfl
@[simp] theorem respond_ks (r : Resp) (a : Word × State) : (respond r a).ks = a.2.ks := rfl
@[simp] theorem respond_ksEnv (r : Resp) (a : Word × State) : (respond r a).ksEnv = a.2.ksEnv := rfl
@[simp] theorem respond_ksAsked (r : Resp) (a : Word × State) : (respond r a).ksAsked = a.2.ksAsked := rfl
@[simp] theorem respond_draws (r : Resp) (a : Word × State) : (respond r a).draws = a.2.draws := rfl
@[simp] theorem respond_powerOns (r : Resp) (a : Word × State) : (respond r a).powerOns = a.2.powerOns := rfl

/-- What a free rdata changes: the count of draws. -/
@[simp] theorem freeRdata_state (size : Nat) (s : State) : (freeRdata size s).2 = { s with draws := s.draws + 1 } := by
  unfold freeRdata; split <;> rfl

/-- A response with a free rdata, all it changes: the response and the count of draws. -/
theorem respond_freeRdata (r : Resp) (size : Nat) (s : State) : respond r (freeRdata size s) =
    { s with resp := some { resp := r, rdata := (freeRdata size s).1 }, draws := s.draws + 1 } := by
  simp only [respond, freeRdata_state]

/-- The free rdata of a one-byte access is a byte, zero-extended (R91). -/
theorem freeRdata_byte (s : State) : (freeRdata 1 s).1 = (Config.freeByte s.draws).setWidth 32 := rfl

end Sys2Proof.Laws
end

