-- ==== Sys2Proof/Laws/Decode.lean ====
section
/-! SUPPORT. The fields of a command word, and the command the latches hold after acceptance. -/

namespace Sys2Proof.Laws

open Sys2Proof.Machine

/-- A word is made of its three fields. -/
theorem wordOf_fieldsOf (v : Word) : wordOf (fieldsOf v) = v := by
  ext i h
  simp only [wordOf, fieldsOf, BitVec.getElem_or, BitVec.getElem_shiftLeft, BitVec.getElem_setWidth,
    BitVec.getLsbD_ofBool, BitVec.getLsbD_extractLsb']
  rcases Nat.lt_trichotomy i 8 with hi | hi | hi
  · simp [hi, show i < 9 by omega, BitVec.getLsbD_eq_getElem h]
  · subst hi; simp
  · simp [show ¬ i < 8 by omega, show ¬ i < 9 by omega, show i - 9 < 23 by omega,
      show ¬ i - 8 = 0 by omega, show 9 + (i - 9) = i by omega, BitVec.getLsbD_eq_getElem h]

/-- The fields of a word are the ones it is made of. -/
theorem fieldsOf_wordOf (f : CmdFields) : fieldsOf (wordOf f) = f := by
  obtain ⟨op, t, rsv⟩ := f
  simp only [fieldsOf, wordOf, CmdFields.mk.injEq]
  refine ⟨?_, ?_, ?_⟩
  · ext i h
    simp [h, show i < 9 by omega, show i < 32 by omega]
  · simp
  · ext i h
    simp [h, show ¬ 9 + i < 8 by omega, show 9 + i < 32 by omega, show 9 + i - 8 ≠ 0 by omega,
      BitVec.getLsbD_of_ge op (9 + i) (by omega)]

/-- Only a word with zero reserved bits decodes to an instruction. -/
theorem rsv_of_decode {v : Word} {i : Instr} (h : decode v = .instr i) : (fieldsOf v).rsv = 0 := by
  by_contra hr
  rw [decode, if_pos hr] at h
  cases h

/-- After acceptance the latches hold the accepted word (R110, R111). -/
theorem latchedWord_latch {v : Word} {i : Instr} (h : decode v = .instr i) (s : State) :
    latchedWord (latch v s).eng = v := by
  have := rsv_of_decode h
  rw [latchedWord, latch_eng]
  simp only [← this]
  exact wordOf_fieldsOf v

theorem presentCommand_of_instr {v : Word} {i : Instr} (h : decode v = .instr i) (s : State) :
    presentCommand v s = { latch v (clearForCommand s) with busy := true } := by
  simp [presentCommand, h]

theorem presentCommand_of_illegal {v : Word} {e : DecodeError} (h : decode v = .illegal e) (s : State) :
    presentCommand v s = completeError .illegalCmd (clearForCommand s) := by
  simp [presentCommand, h]

/-- After acceptance the command in progress is the one the word decodes to. -/
theorem inProgress_presentCommand {v : Word} {i : Instr} (h : decode v = .instr i) (s : State) :
    inProgress (presentCommand v s) = some i := by
  have := latchedWord_latch h (clearForCommand s)
  rw [presentCommand_of_instr h]
  simp only [inProgress, if_true, this, h, Decoded.toOption]

/-- The command in progress is the one the latched word decodes to. -/
theorem inProgress_eq_some {s : State} {i : Instr} (h : inProgress s = some i) :
    s.busy = true ∧ decode (latchedWord s.eng) = .instr i := by
  unfold inProgress at h
  split at h
  · rename_i hb
    refine ⟨hb, ?_⟩
    cases hd : decode (latchedWord s.eng) with
    | instr j => rw [hd] at h; simpa [Decoded.toOption] using h
    | illegal e => rw [hd] at h; simp [Decoded.toOption] at h
  · simp at h

end Sys2Proof.Laws
end

