-- ==== Sys2Proof/Laws/Memory.lean ====
section
/-! SUPPORT. The memory: read after write, what a write leaves alone, and the canonical form, which every memory
operation keeps; the bytes of a word. -/

namespace Sys2Proof.Laws

open Sys2Proof.Machine Sys2Proof.Safety

theorem memFind_memWrite (m : Memory) (a c : Nat) (b : Byte) :
    memFind (memWrite m a b) c = if c = a then some b else memFind m c := by
  induction m with
  | nil => simp [memWrite, memFind, eq_comm]
  | cons p rest ih =>
    obtain ⟨k, d⟩ := p
    by_cases hlt : a < k
    · simp [memWrite, memFind, hlt, eq_comm (a := c)]
    · by_cases heq : a = k
      · subst heq
        by_cases hc : a = c <;> simp [memWrite, memFind, hc, eq_comm (a := c)]
      · simp only [memWrite, hlt, heq, if_false, memFind, ih]
        by_cases hk : k = c
        · subst hk; simp [Ne.symm heq]
        · simp [hk]

/-- Outside the bytes written, a memory is unchanged. -/
theorem memFind_memWriteBytes_outside (bs : List Byte) (m : Memory) (a c : Nat)
    (h : c < a ∨ a + bs.length ≤ c) : memFind (memWriteBytes m a bs) c = memFind m c := by
  induction bs generalizing m a with
  | nil => rfl
  | cons b bs ih =>
    simp only [List.length_cons] at h
    rw [memWriteBytes, ih _ _ (by omega), memFind_memWrite, if_neg (by omega)]

/-- Inside the bytes written, a memory holds them. -/
theorem memFind_memWriteBytes_inside (bs : List Byte) (m : Memory) (a i : Nat) (h : i < bs.length) :
    memFind (memWriteBytes m a bs) (a + i) = some bs[i] := by
  induction bs generalizing m a i with
  | nil => simp at h
  | cons b bs ih =>
    rw [memWriteBytes]
    cases i with
    | zero => rw [memFind_memWriteBytes_outside _ _ _ _ (by omega), memFind_memWrite]; simp
    | succ i =>
      rw [show a + (i + 1) = a + 1 + i by omega, ih _ _ _ (by simpa using h)]; simp

/-- Every entry of a memory after a write is the written one or was there before. -/
theorem mem_memWrite {m : Memory} {a : Nat} {b : Byte} {c : Host.Cell} (h : c ∈ memWrite m a b) :
    c = (a, b) ∨ c ∈ m := by
  induction m with
  | nil => simpa [memWrite] using h
  | cons p rest ih =>
    obtain ⟨k, d⟩ := p
    unfold memWrite at h
    split at h
    · simpa using h
    · split at h
      · rcases List.mem_cons.1 h with h | h
        · exact .inl h
        · exact .inr (List.mem_cons_of_mem _ h)
      · rcases List.mem_cons.1 h with h | h
        · exact .inr (h ▸ List.mem_cons_self)
        · exact (ih h).imp id (List.mem_cons_of_mem _)

theorem memWrite_wf {m : Memory} (a : Nat) (b : Byte) (h : Memory.wf m) : Memory.wf (memWrite m a b) := by
  induction m with
  | nil => simp [Memory.wf, memWrite]
  | cons p rest ih =>
    obtain ⟨k, d⟩ := p
    obtain ⟨hk, hr⟩ := List.pairwise_cons.1 h
    unfold memWrite
    split
    · rename_i hlt
      refine List.pairwise_cons.2 ⟨fun c hc => ?_, h⟩
      rcases List.mem_cons.1 hc with rfl | hc
      · exact hlt
      · exact Nat.lt_trans hlt (hk c hc)
    · split
      · rename_i heq
        exact List.pairwise_cons.2 ⟨fun c hc => heq ▸ hk c hc, hr⟩
      · rename_i hlt hne
        refine List.pairwise_cons.2 ⟨fun c hc => ?_, ih hr⟩
        rcases mem_memWrite hc with rfl | hc
        · show k < a; omega
        · exact hk c hc

/-- Every memory operation keeps the canonical form. -/
theorem memWriteBytes_wf (bs : List Byte) {m : Memory} (a : Nat) (h : Memory.wf m) :
    Memory.wf (memWriteBytes m a bs) := by
  induction bs generalizing m a with
  | nil => exact h
  | cons b bs ih => exact ih _ (memWrite_wf a b h)

/-- Every entry of a memory after a byte string is written is at one of its addresses or was there before. -/
theorem mem_memWriteBytes {bs : List Byte} {m : Memory} {a : Nat} {c : Host.Cell}
    (h : c ∈ memWriteBytes m a bs) : (a ≤ c.1 ∧ c.1 < a + bs.length) ∨ c ∈ m := by
  induction bs generalizing m a with
  | nil => exact .inr h
  | cons b bs ih =>
    simp only [List.length_cons]
    rcases ih h with h | h
    · exact .inl (by omega)
    · rcases mem_memWrite h with rfl | h
      · exact .inl (by simp)
      · exact .inr h

/-- The memory after reset is in canonical form. -/
theorem reset_mem_wf : Memory.wf State.reset.mem := by decide

/-! ## The bytes a state holds -/

theorem readByte_congr {s t : State} (hm : t.mem = s.mem) (hp : t.powerOns = s.powerOns) (a : Nat) :
    readByte t a = readByte s a := by simp [readByte, hm, hp]

theorem readBytes_congr {s t : State} (a n : Nat)
    (h : ∀ i, i < n → readByte t (a + i) = readByte s (a + i)) : readBytes t a n = readBytes s a n := by
  induction n generalizing a with
  | zero => rfl
  | succ n ih =>
    simp only [readBytes]
    rw [show readByte t a = readByte s a from h 0 (by omega), ih (a + 1) (fun i hi => by
      have := h (i + 1) (by omega)
      rwa [show a + (i + 1) = a + 1 + i by omega] at this)]

@[simp] theorem readBytes_length (s : State) (a n : Nat) : (readBytes s a n).length = n := by
  induction n generalizing a with
  | zero => rfl
  | succ n ih => simp [readBytes, ih]

theorem readBytes_getElem (s : State) (a n i : Nat) (h : i < (readBytes s a n).length) :
    (readBytes s a n)[i] = readByte s (a + i) := by
  induction n generalizing a i with
  | zero => simp at h
  | succ n ih =>
    cases i with
    | zero => simp [readBytes]
    | succ i =>
      simp only [readBytes, List.getElem_cons_succ]
      rw [ih, show a + 1 + i = a + (i + 1) by omega]

@[simp] theorem ramBytes_length (s : State) (w : Window) (n : Nat) : (ramBytes s w n).length = n :=
  readBytes_length ..

@[simp] theorem msgBytes_length (s : State) : (msgBytes s).length = opN s := ramBytes_length ..

@[simp] theorem keyBytes_length (s : State) : (keyBytes s).length = opK s := ramBytes_length ..

/-- A RAM write changes the bytes it writes and no other. -/
theorem readByte_ramWrite_outside (w : Window) (i : Nat) (bs : List Byte) (s : State) (a : Nat)
    (h : a < ramAddr w i ∨ ramAddr w i + bs.length ≤ a) : readByte (ramWrite w i bs s) a = readByte s a := by
  simp only [readByte, ramWrite_mem, ramWrite_powerOns, memFind_memWriteBytes_outside bs _ _ _ h]

theorem readByte_ramWrite_inside (w : Window) (i : Nat) (bs : List Byte) (s : State) (j : Nat)
    (h : j < bs.length) : readByte (ramWrite w i bs s) (ramAddr w i + j) = bs[j] := by
  simp only [readByte, ramWrite_mem, memFind_memWriteBytes_inside bs _ _ _ h, Option.getD_some]

/-- A RAM write read back. -/
theorem readBytes_ramWrite_self (w : Window) (i : Nat) (bs : List Byte) (s : State) :
    readBytes (ramWrite w i bs s) (ramAddr w i) bs.length = bs := by
  apply List.ext_getElem (by simp)
  intro j h1 h2
  rw [readBytes_getElem, readByte_ramWrite_inside w i bs s j h2]

/-! ## The bytes of a word -/

theorem wordOfBytes_toNat (b0 b1 b2 b3 : Byte) : (wordOfBytes b0 b1 b2 b3).toNat =
    b0.toNat * 16777216 + b1.toNat * 65536 + b2.toNat * 256 + b3.toNat := by
  have h0 := b0.isLt
  have h1 := b1.isLt
  have h2 := b2.isLt
  have h3 := b3.isLt
  rw [wordOfBytes, BitVec.toNat_ofNat, Nat.mod_eq_of_lt (by omega)]
  omega

/-- A word put together from its bytes has them in its lanes, the first highest (R12). -/
theorem wordOfBytes_lanes (b0 b1 b2 b3 : Byte) :
    (wordOfBytes b0 b1 b2 b3).extractLsb' 24 8 = b0 ∧ (wordOfBytes b0 b1 b2 b3).extractLsb' 16 8 = b1 ∧
    (wordOfBytes b0 b1 b2 b3).extractLsb' 8 8 = b2 ∧ (wordOfBytes b0 b1 b2 b3).extractLsb' 0 8 = b3 := by
  have h0 := b0.isLt
  have h1 := b1.isLt
  have h2 := b2.isLt
  have h3 := b3.isLt
  refine ⟨?_, ?_, ?_, ?_⟩ <;> apply BitVec.eq_of_toNat_eq <;>
    rw [BitVec.extractLsb'_toNat, wordOfBytes_toNat, Nat.shiftRight_eq_div_pow] <;> omega

/-- The word that a word's own bytes form (R12). -/
theorem be32_beBytes (w : Word) : be32 (beBytes w) = w := by
  apply BitVec.eq_of_toNat_eq
  have h := w.isLt
  simp only [be32, beBytes, List.getD_cons_zero, List.getD_cons_succ, wordOfBytes_toNat, BitVec.extractLsb'_toNat,
    Nat.shiftRight_eq_div_pow]
  omega

end Sys2Proof.Laws
end

