-- ==== Sys2Proof/Laws/Bus.lean ====
section
/-! SUPPORT. The address map and what a bus transaction can change. -/

namespace Sys2Proof.Laws

open Sys2Proof.Machine Sys2Proof.Safety

/-! ## The address map -/

@[simp] theorem relAddr_regAddr (c : Config) (r : Reg) : relAddr c (regAddr c r) = regOffset r := by
  have : regOffset r < 2 ^ 32 := by
    cases r with
    | digest i => have := i.isLt; simp only [regOffset]; omega
    | _ => simp [regOffset]
  rw [relAddr, regAddr, add_sub_cancel_left, BitVec.toNat_ofNat]
  exact Nat.mod_eq_of_lt this

theorem relAddr_ramBusAddr (c : Config) (w : Window) (o : Nat) (h : o < 0x10000) :
    relAddr c (ramBusAddr c w o) = ramAddr w o := by
  have : ramAddr w o < 2 ^ 32 := by cases w <;> simp only [ramAddr, windowBase] <;> omega
  rw [relAddr, ramBusAddr, add_sub_cancel_left, BitVec.toNat_ofNat]
  exact Nat.mod_eq_of_lt this

@[simp] theorem locate_reg (cap : Nat) (r : Reg) : locate cap (regOffset r) 4 = some (.reg r) := by
  cases r with
  | digest i => fin_cases i <;> rfl
  | _ => rfl

theorem windowAt_ramAddr (w : Window) (o : Nat) (h : o < 0x10000) : windowAt (ramAddr w o) = some w := by
  cases w
  · exact if_pos (by simp only [ramAddr, windowBase]; omega)
  · exact (if_neg (by simp only [ramAddr, windowBase]; omega)).trans
      (if_pos (by simp only [ramAddr, windowBase]; omega))
  · exact (if_neg (by simp only [ramAddr, windowBase]; omega)).trans
      ((if_neg (by simp only [ramAddr, windowBase]; omega)).trans
        (if_pos (by simp only [ramAddr, windowBase]; omega)))

/-- A RAM address reaches what `ramTarget` says, for every offset of its window. -/
theorem locate_ram (cap : Nat) (w : Window) (o size : Nat) (h : o < 0x10000) :
    locate cap (ramAddr w o) size = ramTarget cap w o size := by
  rw [locate, if_neg (by cases w <;> simp only [ramAddr, windowBase] <;> omega), windowAt_ramAddr w o h]
  simp [ramAddr]

/-- The register at an offset is the one whose offset it is. -/
theorem regAt_eq_some {o : Nat} {r : Reg} (h : regAt o = some r) : o = regOffset r := by
  unfold regAt at h
  split at h
  · cases Option.some.inj h
    simp only [regOffset, Fin.val_ofNat]
    omega
  · unfold controlRegAt at h
    split_ifs at h <;> cases Option.some.inj h <;> assumption

theorem windowBase_le_of_windowAt {a : Nat} {w : Window} (h : windowAt a = some w) :
    windowBase w ≤ a ∧ a < windowBase w + 0x10000 := by
  unfold windowAt at h
  repeat' split at h
  all_goals first
    | (cases h; done)
    | (cases h; simp only [windowBase]; omega)

/-- What a located target is: a register at its offset, or bytes of a RAM below the capacity. -/
theorem locate_eq_some {cap a size : Nat} {t : Target} (h : locate cap a size = some t) :
    (∃ r, t = .reg r ∧ a = regOffset r ∧ size = 4) ∨
    (∃ w o, windowAt a = some w ∧ a = ramAddr w o ∧
      ((t = .byte w o ∧ size = 1 ∧ o < cap) ∨ (t = .word w o ∧ size = 4 ∧ o % 4 = 0 ∧ o + 4 ≤ cap))) := by
  unfold locate at h
  split at h
  · split at h
    · rename_i hs
      obtain ⟨r, hr, rfl⟩ := Option.map_eq_some_iff.1 h
      exact .inl ⟨r, rfl, regAt_eq_some hr, hs.1⟩
    · cases h
  · split at h
    · rename_i w hw
      have hb := windowBase_le_of_windowAt hw
      refine .inr ⟨w, a - windowBase w, hw, by simp only [ramAddr]; omega, ?_⟩
      unfold ramTarget at h
      split_ifs at h with h1 h2
      · exact .inl ⟨(Option.some.inj h).symm, h1⟩
      · exact .inr ⟨(Option.some.inj h).symm, h2⟩
    · cases h

/-! ## What a transaction can change -/

/-- What a read can change: the environment's answers and the draws. -/
theorem readTarget_state (t : Target) (s : State) :
    (readTarget t s).2 = { s with
      ksEnv := (readTarget t s).2.ksEnv, ksAsked := (readTarget t s).2.ksAsked, draws := (readTarget t s).2.draws } := by
  have key : (readKsSize s).2 = takeAnswer s := by
    simp only [readKsSize, ksSize]; cases nextIoFail s <;> rfl
  cases t with
  | reg r =>
    cases r <;> simp only [readTarget, readReg] <;> (try split) <;> first | rfl | (rw [key, takeAnswer_draws]; exact takeAnswer_eq s)
  | byte w o => simp only [readTarget, readRamByte]; split <;> rfl
  | word w o => simp only [readTarget, readRamWord]; split <;> rfl

/-- A read that is not one of KS_SIZE, while idle, changes nothing. -/
theorem readTarget_idle (t : Target) (s : State) (hb : s.busy = false) (ht : t ≠ .reg .ksSize) :
    (readTarget t s).2 = s := by
  cases t with
  | reg r => cases r <;> simp_all [readTarget, readReg]
  | byte w o => simp [readTarget, readRamByte, hb]
  | word w o => simp [readTarget, readRamWord, hb]

/-- What a write can change, other than an idle CMD write: MSG_LEN, KEY_LEN, OVR, and bytes of MSG or KEY. -/
theorem writeTarget_cases (t : Target) (v : Word) (s : State) :
    (t = .reg .cmd ∧ s.busy = false ∧ writeTarget t v s = presentCommand v s) ∨
    (∃ ml kl ov, writeTarget t v s = { s with msgLen := ml, keyLen := kl, ovr := ov } ∧
      (ov = s.ovr ∨ ov = true ∨ (t = .reg .status ∧ v.getLsbD 2 = true))) ∨
    (∃ w o bs, (w = .msg ∨ w = .key) ∧ writeTarget t v s = ramWrite w o bs s ∧ s.busy = false ∧
      ((t = .byte w o ∧ bs = [v.extractLsb' 0 8]) ∨ (t = .word w o ∧ bs = beBytes v))) := by
  cases t with
  | reg r =>
    cases r
    case cmd =>
      cases hb : s.busy
      · exact .inl ⟨rfl, rfl, by simp [writeTarget, writeReg, whenIdle, hb]⟩
      · exact .inr (.inl ⟨s.msgLen, s.keyLen, true, by simp [writeTarget, writeReg, whenIdle, hb, dropWrite], by simp⟩)
    case status =>
      by_cases h2 : v.getLsbD 2 = true
      · exact .inr (.inl ⟨s.msgLen, s.keyLen, false, by rw [writeTarget, writeReg, writeStatus, if_pos h2], .inr (.inr ⟨rfl, h2⟩)⟩)
      · exact .inr (.inl ⟨s.msgLen, s.keyLen, s.ovr, by rw [writeTarget, writeReg, writeStatus, if_neg h2], .inl rfl⟩)
    case msgLen =>
      cases hb : s.busy
      · exact .inr (.inl ⟨v, s.keyLen, s.ovr, by simp [writeTarget, writeReg, whenIdle, hb], .inl rfl⟩)
      · exact .inr (.inl ⟨s.msgLen, s.keyLen, true, by simp [writeTarget, writeReg, whenIdle, hb, dropWrite], by simp⟩)
    case keyLen =>
      cases hb : s.busy
      · exact .inr (.inl ⟨s.msgLen, v, s.ovr, by simp [writeTarget, writeReg, whenIdle, hb], .inl rfl⟩)
      · exact .inr (.inl ⟨s.msgLen, s.keyLen, true, by simp [writeTarget, writeReg, whenIdle, hb, dropWrite], by simp⟩)
    all_goals exact .inr (.inl ⟨s.msgLen, s.keyLen, s.ovr, rfl, .inl rfl⟩)
  | byte w o =>
    cases hb : s.busy <;> cases w
    case false.msg => exact .inr (.inr ⟨.msg, o, _, .inl rfl, by simp [writeTarget, writeRam, whenIdle, hb], rfl, .inl ⟨rfl, rfl⟩⟩)
    case false.key => exact .inr (.inr ⟨.key, o, _, .inr rfl, by simp [writeTarget, writeRam, whenIdle, hb], rfl, .inl ⟨rfl, rfl⟩⟩)
    case true.msg => exact .inr (.inl ⟨s.msgLen, s.keyLen, true, by simp [writeTarget, writeRam, whenIdle, hb, dropWrite], by simp⟩)
    case true.key => exact .inr (.inl ⟨s.msgLen, s.keyLen, true, by simp [writeTarget, writeRam, whenIdle, hb, dropWrite], by simp⟩)
    all_goals exact .inr (.inl ⟨s.msgLen, s.keyLen, s.ovr, by rw [← hb]; rfl, .inl rfl⟩)
  | word w o =>
    cases hb : s.busy <;> cases w
    case false.msg => exact .inr (.inr ⟨.msg, o, _, .inl rfl, by simp [writeTarget, writeRam, whenIdle, hb], rfl, .inr ⟨rfl, rfl⟩⟩)
    case false.key => exact .inr (.inr ⟨.key, o, _, .inr rfl, by simp [writeTarget, writeRam, whenIdle, hb], rfl, .inr ⟨rfl, rfl⟩⟩)
    case true.msg => exact .inr (.inl ⟨s.msgLen, s.keyLen, true, by simp [writeTarget, writeRam, whenIdle, hb, dropWrite], by simp⟩)
    case true.key => exact .inr (.inl ⟨s.msgLen, s.keyLen, true, by simp [writeTarget, writeRam, whenIdle, hb, dropWrite], by simp⟩)
    all_goals exact .inr (.inl ⟨s.msgLen, s.keyLen, s.ovr, by rw [← hb]; rfl, .inl rfl⟩)

/-- A transaction outside reset is performed (R73). -/
theorem busTurn_of_running {s : State} (h : s.rst = false) (x : Txn) : busTurn x s = .next (busTxn x s) := by
  simp [busTurn, h]

/-- A transaction on a located target is that access with an OK response. -/
theorem busTxn_of_locate {s : State} {x : Txn} {t : Target}
    (h : locate s.cfg.bufCap (relAddr s.cfg x.addr) x.size = some t) :
    busTxn x s = performTxn x t s := by
  simp [busTxn, h]

/-- A transaction that reaches nothing is a bus error. -/
theorem busTxn_of_not_located {s : State} {x : Txn}
    (h : locate s.cfg.bufCap (relAddr s.cfg x.addr) x.size = none) : busTxn x s = busError x s := by
  simp [busTxn, h]

theorem busTxn_regWrite (r : Reg) (v : Word) (s : State) :
    busTxn (regWrite s.cfg r v) s = respond .ok (freeRdata 4 (writeReg r v s)) := by
  rw [busTxn_of_locate (t := .reg r) (by simp [regWrite])]
  rfl

theorem busTxn_regRead (r : Reg) (s : State) :
    busTxn (regRead s.cfg r) s = respond .ok (readReg r s) := by
  rw [busTxn_of_locate (t := .reg r) (by simp [regRead])]
  rfl

theorem bufCap_le_of_wf {c : Config} (h : c.wf = true) : 64 ≤ c.bufCap ∧ c.bufCap ≤ 0x10000 := by
  simp only [Config.wf, Bool.and_eq_true, decide_eq_true_eq] at h
  exact ⟨h.1.1, h.1.2⟩

theorem busTxn_byteWrite (w : Window) (o : Nat) (v : Word) (s : State) (hw : s.cfg.wf = true) (h : o < s.cfg.bufCap) :
    busTxn (byteWrite s.cfg w o v) s = respond .ok (freeRdata 1 (writeRam w o [v.extractLsb' 0 8] s)) := by
  have := bufCap_le_of_wf hw
  rw [busTxn_of_locate (t := .byte w o) (by
    simp [byteWrite, relAddr_ramBusAddr _ _ _ (show o < 0x10000 by omega), locate_ram _ _ _ _ (show o < 0x10000 by omega),
      ramTarget, h])]
  rfl

theorem busTxn_byteRead (w : Window) (o : Nat) (s : State) (hw : s.cfg.wf = true) (h : o < s.cfg.bufCap) :
    busTxn (byteRead s.cfg w o) s = respond .ok (readRamByte w o s) := by
  have := bufCap_le_of_wf hw
  rw [busTxn_of_locate (t := .byte w o) (by
    simp [byteRead, relAddr_ramBusAddr _ _ _ (show o < 0x10000 by omega), locate_ram _ _ _ _ (show o < 0x10000 by omega),
      ramTarget, h])]
  rfl

theorem busTxn_wordWrite (w : Window) (o : Nat) (v : Word) (s : State) (hw : s.cfg.wf = true) (h4 : o % 4 = 0)
    (h : o + 4 ≤ s.cfg.bufCap) :
    busTxn (wordWrite s.cfg w o v) s = respond .ok (freeRdata 4 (writeRam w o (beBytes v) s)) := by
  have := bufCap_le_of_wf hw
  rw [busTxn_of_locate (t := .word w o) (by
    simp [wordWrite, relAddr_ramBusAddr _ _ _ (show o < 0x10000 by omega), locate_ram _ _ _ _ (show o < 0x10000 by omega),
      ramTarget, h, h4])]
  rfl

theorem busTxn_wordRead (w : Window) (o : Nat) (s : State) (hw : s.cfg.wf = true) (h4 : o % 4 = 0)
    (h : o + 4 ≤ s.cfg.bufCap) :
    busTxn (wordRead s.cfg w o) s = respond .ok (readRamWord w o s) := by
  have := bufCap_le_of_wf hw
  rw [busTxn_of_locate (t := .word w o) (by
    simp [wordRead, relAddr_ramBusAddr _ _ _ (show o < 0x10000 by omega), locate_ram _ _ _ _ (show o < 0x10000 by omega),
      ramTarget, h, h4])]
  rfl

end Sys2Proof.Laws
end

