-- ==== Sys2Proof/Laws/Datapath.lean ====
section
/-! SUPPORT. What the SHA-256 datapath and the HMAC controller deliver: the functions `digest`, `keyPad` and `hmac`. -/

namespace Sys2Proof.Laws

open Sys2Proof.Machine

/-! ## Lengths -/

@[simp] theorem beBytes_length (w : Word) : (beBytes w).length = 4 := rfl

@[simp] theorem be64_length (v : BitVec 64) : (be64 v).length = 8 := rfl

@[simp] theorem ser_length (h : Hash) : (ser h).length = 32 := rfl

theorem scheduleExtend_length (n : Nat) (w : List Word) : (scheduleExtend n w).length = w.length + n := by
  induction n generalizing w with
  | zero => rfl
  | succ n ih => simp only [scheduleExtend, ih, List.length_append, List.length_singleton]; omega

theorem blockWords_length (n : Nat) (b : List Byte) : (blockWords n b).length = n := by
  induction n generalizing b with
  | zero => rfl
  | succ n ih => simp [blockWords, ih]

@[simp] theorem schedule_length (b : List Byte) : (schedule b).length = 64 := by
  simp [schedule, scheduleExtend_length, blockWords_length]

@[simp] theorem xorZip_length (a b : List Byte) : (xorZip a b).length = min a.length b.length := by
  simp [xorZip]

theorem pad_length (s : List Byte) : (pad s).length = s.length + 9 + padZeros s.length := by
  simp [pad]; omega

/-- A padded stream is a whole number of blocks. -/
theorem pad_length_eq_blocks (s : List Byte) : (pad s).length = 64 * ((s.length + 8) / 64 + 1) := by
  rw [pad_length]; unfold padZeros; omega

theorem blockCount_pad (s : List Byte) : blockCount (pad s) = (s.length + 8) / 64 + 1 := by
  rw [blockCount, pad_length_eq_blocks]; omega

/-! ## The datapath -/

theorem dpRound_t (e : Engine) (h : e.t.toNat < 63) : (dpRound e).t.toNat = e.t.toNat + 1 := by
  show (e.t + 1#6).toNat = _
  rw [BitVec.toNat_add]; simp; omega

/-- So many rounds from round counter `t`: the working variables are those of `roundsFrom`; H, W, blk and the rest stay. -/
theorem dpRounds_spec (n : Nat) (e : Engine) (h : e.t.toNat + n ≤ 64) :
    ∃ t, dpRounds n e = { e with work := roundsFrom e.w e.t.toNat n e.work, t := t } := by
  induction n generalizing e with
  | zero => exact ⟨e.t, rfl⟩
  | succ n ih =>
    by_cases hn : n = 0
    · subst hn; exact ⟨e.t + 1, rfl⟩
    · have ht := dpRound_t e (by omega)
      obtain ⟨t, h'⟩ := ih (dpRound e) (by omega)
      exact ⟨t, by rw [dpRounds, h', ht]; rfl⟩

theorem dpFeedForward_rounds (n : Nat) (hn : n ≤ 64) (b : List Byte) (e : Engine) :
    ∃ t v, dpFeedForward (dpRounds n (dpLoadBlock b e)) =
      { e with
        h := addWork e.h (roundsFrom (schedule b) 0 n (workOfHash e.h)), work := v, w := schedule b, t := t } := by
  obtain ⟨t, h⟩ := dpRounds_spec n (dpLoadBlock b e) (by show (0#6).toNat + n ≤ 64; simpa using hn)
  have h0 : (dpLoadBlock b e).t.toNat = 0 := rfl
  rw [h0] at h
  exact ⟨t, roundsFrom (schedule b) 0 n (workOfHash e.h), by rw [h]; rfl⟩

/-- One block through the datapath: H becomes Compress(H, B); W is its schedule; blk, KP, IH, PHASE and the latches stay. -/
theorem dpBlock_spec (b : List Byte) (e : Engine) :
    ∃ t v, dpBlock b e = { e with h := compress e.h b, work := v, w := schedule b, t := t } := by
  unfold dpBlock compress
  exact dpFeedForward_rounds 64 (Nat.le_refl 64) b e

theorem blk_succ (x : Word) (h : x.toNat + 1 < 2 ^ 32) : (x + 1).toNat = x.toNat + 1 := by
  show (x + 1#32).toNat = _
  rw [BitVec.toNat_add]; simp; omega

/-- One more block: H takes it, blk moves on; KP, IH and PHASE stay. -/
theorem dpNextBlock_spec (m : List Byte) (e : Engine) (h : e.blk.toNat + 1 < 2 ^ 32) :
    (dpNextBlock m e).h = compressBlock m e.h e.blk.toNat ∧ (dpNextBlock m e).blk.toNat = e.blk.toNat + 1 ∧
    (dpNextBlock m e).kp = e.kp ∧ (dpNextBlock m e).ih = e.ih ∧ (dpNextBlock m e).phase = e.phase ∧
    (dpNextBlock m e).w.length = 64 := by
  obtain ⟨t, v, hb⟩ := dpBlock_spec (blockAt m e.blk.toNat) e
  rw [dpNextBlock, compressBlock]
  simp only [hb, blk_succ e.blk h, schedule_length, and_self]

/-- So many blocks from block `blk`: H takes them in order; KP, IH and PHASE stay. -/
theorem dpNextBlock_iterate_spec (m : List Byte) (n : Nat) (e : Engine) (h : e.blk.toNat + n < 2 ^ 32) :
    ((dpNextBlock m)^[n] e).h = (List.range' e.blk.toNat n).foldl (compressBlock m) e.h ∧
    ((dpNextBlock m)^[n] e).kp = e.kp ∧ ((dpNextBlock m)^[n] e).ih = e.ih ∧
    ((dpNextBlock m)^[n] e).phase = e.phase := by
  induction n generalizing e with
  | zero => exact ⟨rfl, rfl, rfl, rfl⟩
  | succ n ih =>
    obtain ⟨h1, h2, h3, h4, h5, -⟩ := dpNextBlock_spec m e (by omega)
    have := ih (dpNextBlock m e) (by omega)
    rw [h1, h2, h3, h4, h5] at this
    rw [Function.iterate_succ_apply, List.range'_succ, List.foldl_cons]
    exact this

/-- One digest through the datapath delivers `digest` in H, for every stream whose blocks the 32-bit blk can count. -/
theorem dpDigest_spec (s : List Byte) (e : Engine) (h : s.length < 2 ^ 37) :
    (dpDigest s e).h = digest s ∧ (dpDigest s e).kp = e.kp ∧ (dpDigest s e).ih = e.ih ∧
    (dpDigest s e).phase = e.phase := by
  have hn : (s.length + 8) / 64 + 1 < 2 ^ 32 := by omega
  rw [dpDigest, digest, List.range_eq_range', blockCount_pad]
  exact dpNextBlock_iterate_spec (pad s) _ { e with h := initialHash, blk := 0 }
    (by show (0#32).toNat + _ < _; simpa using hn)

/-! ## The mux and the HMAC controller -/

theorem opN_lt (s : State) : opN s < 2 ^ 32 := s.eng.nLat.isLt

theorem opK_lt (s : State) : opK s < 2 ^ 32 := s.eng.kLat.isLt

@[simp] theorem ipad_length (kp : List Byte) : (ipad kp).length = kp.length := by simp [ipad]

@[simp] theorem opad_length (kp : List Byte) : (opad kp).length = kp.length := by simp [opad]

theorem zeroPad64_length {k : List Byte} (h : k.length ≤ 64) : (zeroPad64 k).length = 64 := by
  simp [zeroPad64]; omega

@[simp] theorem keyPad_length (k : List Byte) : (keyPad k).length = 64 := by
  unfold keyPad
  split
  · exact zeroPad64_length (by simp)
  · exact zeroPad64_length (by omega)

/-- Phase PLAIN leaves the message's digest in H. -/
theorem runPhase_plain_h (s : State) (e : Engine) : (runPhase .plain s e).h = digest (msgBytes s) :=
  (dpDigest_spec _ _ (by simp only [muxStream, msgBytes_length]; have := opN_lt s; omega)).1

/-- key_padding in the engine leaves KeyPad(KEY[0..k)) in KP. -/
theorem runKeyPad_kp (s : State) (e : Engine) : (runKeyPad s e).kp = keyPad (keyBytes s) := by
  unfold runKeyPad keyPad
  rw [keyBytes_length]
  split
  · have := (dpDigest_spec (keyBytes s) { e with phase := .keyHash }
      (by rw [keyBytes_length]; have := opK_lt s; omega)).1
    simp only [runPhase, muxStream, this]
  · rfl

/-- The inner hash leaves Digest(IPAD ‖ MSG) in IH and KP as it was. -/
theorem runInner_spec (s : State) (e : Engine) (h : e.kp.length = 64) :
    (runInner s e).ih = digest (ipad e.kp ++ msgBytes s) ∧ (runInner s e).kp = e.kp := by
  obtain ⟨h1, h2, -, -⟩ := dpDigest_spec (ipad e.kp ++ msgBytes s) { e with phase := .inner }
    (by simp only [List.length_append, ipad_length, h, msgBytes_length]; have := opN_lt s; omega)
  exact ⟨h1, h2⟩

/-- The HMAC controller leaves HMAC(KEY[0..k), MSG[0..n)) in H. -/
theorem runHmac_h (s : State) (e : Engine) : (runHmac s e).h = hmac (keyBytes s) (msgBytes s) := by
  have hk : (runKeyPad s e).kp = keyPad (keyBytes s) := runKeyPad_kp s e
  obtain ⟨h1, h2⟩ := runInner_spec s (runKeyPad s e) (by rw [hk]; simp)
  rw [hk] at h1 h2
  have := (dpDigest_spec (opad (runInner s (runKeyPad s e)).kp ++ ser (runInner s (runKeyPad s e)).ih)
    { runInner s (runKeyPad s e) with phase := .outer } (by rw [h2]; simp)).1
  simp only [runHmac, runPhase, muxStream, this]
  rw [h1, h2, hmac]

end Sys2Proof.Laws
end

