-- ==== Sys2Proof/Laws/Commands.lean ====
section
/-! SUPPORT. What the key store's requests, the OTP sequencer and the commands can come to: each law says it once, so that
no later proof unfolds them. -/

namespace Sys2Proof.Laws

open Sys2Proof.Machine Sys2Proof.Safety

/-! ## The completion events -/

theorem endedError_completeError (code : ErrCode) (s : State) : EndedError code s (completeError code s) where
  err := rfl
  busy := rfl
  done := rfl
  outLen := rfl
  lock := rfl
  h := rfl
  ks := rfl
  ram := fun _ => rfl
  frame := ⟨rfl, rfl, rfl, rfl, rfl, rfl, rfl, rfl⟩

theorem commandFrame_completeOk (s : State) : CommandFrame s (completeOk s) := ⟨rfl, rfl, rfl, rfl, rfl, rfl, rfl, rfl⟩

theorem endedOk_completeOk (s : State) : EndedOk (completeOk s) := ⟨rfl, rfl, rfl⟩

theorem commandFrame_delivered (bs : List Byte) (len : Word) (s : State) :
    CommandFrame s (completeOk (deliver bs len s)) := by
  constructor <;> simp

/-- A result delivered and the command completed: the bytes outside OUT[0..len) read as before. -/
theorem readByte_delivered_outside (bs : List Byte) (len : Word) (s : State) (a : Nat)
    (h : a < ramAddr .out 0 ∨ ramAddr .out 0 + bs.length ≤ a) :
    readByte (completeOk (deliver bs len s)) a = readByte s a :=
  readByte_ramWrite_outside .out 0 bs s a h

/-- A result delivered and the command completed: OUT[0..len) reads as the result. -/
theorem readByte_delivered_inside (bs : List Byte) (len : Word) (s : State) (i : Nat) (h : i < bs.length) :
    readByte (completeOk (deliver bs len s)) (ramAddr .out i) = bs[i] := by
  have : ramAddr .out i = ramAddr .out 0 + i := by simp [ramAddr]
  rw [this]
  exact readByte_ramWrite_inside .out 0 bs s i h

theorem readBytes_delivered (bs : List Byte) (len : Word) (s : State) :
    readBytes (completeOk (deliver bs len s)) (ramAddr .out 0) bs.length = bs :=
  (readBytes_congr (s := ramWrite .out 0 bs s) (t := completeOk (deliver bs len s)) _ _ fun _ _ => rfl).trans (readBytes_ramWrite_self .out 0 bs s)

/-! ## The hashing commands -/

theorem execShaDigest_eq (s : State) : execShaDigest s =
    .next (if s.cfg.bufCap < opN s then completeError .capacity s
      else deliverDigest (runPhase .plain s s.eng) s) := by
  simp only [execShaDigest, msgTooLong, decide_eq_true_eq]; split <;> rfl

theorem execHmac_eq (s : State) : execHmac s =
    .next (if s.cfg.bufCap < opN s ∨ s.cfg.bufCap < opK s then completeError .capacity s
      else deliverDigest (runHmac s s.eng) s) := by
  simp only [execHmac, msgTooLong, keyTooLong, Bool.or_eq_true, decide_eq_true_eq]; split <;> rfl

/-- What a hashing command that completes leaves, for the digest its datapath holds in H. -/
theorem deliverDigest_spec (e : Engine) (s : State) :
    (deliverDigest e s).eng.h = e.h ∧ (deliverDigest e s).outLen = 32 ∧
    readBytes (deliverDigest e s) (ramAddr .out 0) 32 = ser e.h ∧
    SameOutside s (deliverDigest e s) (ramAddr .out 0) 32 ∧
    CommandFrame s (deliverDigest e s) ∧ EndedOk (deliverDigest e s) :=
  ⟨rfl, rfl, readBytes_delivered (ser e.h) 32 { s with eng := e },
    fun a h => readByte_delivered_outside (ser e.h) 32 { s with eng := e } a h,
    ⟨rfl, rfl, rfl, rfl, rfl, rfl, rfl, rfl⟩, ⟨rfl, rfl, rfl⟩⟩

/-! ## XOR -/

theorem execXor_eq (s : State) : execXor s =
    .next (if s.cfg.bufCap < opN s ∨ s.cfg.bufCap < opK s then completeError .capacity s
      else if opK s ≠ opN s then completeError .lengthMismatch s
      else completeOk (deliver (xorZip (keyBytes s) (msgBytes s)) s.eng.nLat s)) := by
  simp only [execXor, msgTooLong, keyTooLong, Bool.or_eq_true, decide_eq_true_eq]
  split
  · rfl
  · split <;> rfl

theorem xorZip_getElem (a b : List Byte) (i : Nat) (h : i < (xorZip a b).length) :
    (xorZip a b)[i] = a[i]'(by simp at h; omega) ^^^ b[i]'(by simp at h; omega) := by
  simp [xorZip]

theorem msgBytes_congr {s t : State} (hn : opN t = opN s) (hm : t.mem = s.mem) (hp : t.powerOns = s.powerOns) :
    msgBytes t = msgBytes s := by
  rw [msgBytes, msgBytes, hn]
  exact readBytes_congr _ _ fun _ _ => readByte_congr hm hp _

theorem msgBytes_getElem (s : State) (i : Nat) (h : i < (msgBytes s).length) :
    (msgBytes s)[i] = readByte s (ramAddr .msg i) := by
  simp [msgBytes, ramBytes, readBytes_getElem, ramAddr]

theorem keyBytes_getElem (s : State) (i : Nat) (h : i < (keyBytes s).length) :
    (keyBytes s)[i] = readByte s (ramAddr .key i) := by
  simp [keyBytes, ramBytes, readBytes_getElem, ramAddr]

/-! ## The sequencer -/

@[simp] theorem tailBytes_length (n : Nat) (ks : List Byte) : (tailBytes n ks).length = min n ks.length := by
  simp [tailBytes]; omega

/-- READING → VALIDATED, every case of it (R231). -/
theorem otpValidate_eq (s : State) : otpValidate s =
    if nextIoFail s then .raised .ioFailure (takeAnswer s)
    else if s.ks.length < opN s then .raised .keyTooShort (takeAnswer s)
    else if nextIoFail (takeAnswer s) then .raised .ioFailure (takeAnswer (takeAnswer s))
    else .done (tailBytes (opN s) s.ks, s.ks.length)
      { takeAnswer (takeAnswer s) with otpState := .validated } := by
  have hn : opN (takeAnswer s) = opN s := by simp [opN]
  simp only [otpValidate, ksSize, otpReadKey, ksReadTail]
  cases nextIoFail s
  · simp only [Bool.false_eq_true, if_false, hn, takeAnswer_ks]
    split
    · rfl
    · cases nextIoFail (takeAnswer s)
      · simp only [Bool.false_eq_true, if_false]
        rw [if_pos (by omega)]
        simp
      · rfl
  · rfl

/-- VALIDATED → CONSUMED, every case of it (R232). -/
theorem otpConsume_eq (truncate : Bool) (key : List Byte) (m : Nat) (s : State) : otpConsume truncate key m s =
    if truncate then
      (if nextIoFail s then .raised .ioFailure (takeAnswer s)
       else .done (xorZip key (msgBytes s))
        { takeAnswer s with ks := s.ks.take (m - opN s), otpState := .consumed, lock := false })
    else .done (xorZip key (msgBytes s)) { s with otpState := .consumed, lock := false } := by
  cases truncate
  · rfl
  · simp only [otpConsume, otpTruncate, ksTruncate]
    cases nextIoFail s
    · rfl
    · rfl

/-- What the sequencer changes on its way to a completion event is OTP_STATE, LOCK and the answers it takes; the key store
besides, when it truncates it. -/
structure SequencerFrame (s s' : State) : Prop where
  cfg : s'.cfg = s.cfg
  agenda : s'.agenda = s.agenda
  rst : s'.rst = s.rst
  resp : s'.resp = s.resp
  ovr : s'.ovr = s.ovr
  msgLen : s'.msgLen = s.msgLen
  keyLen : s'.keyLen = s.keyLen
  eng : s'.eng = s.eng
  mem : s'.mem = s.mem
  powerOns : s'.powerOns = s.powerOns

theorem SequencerFrame.opN {s s' : State} (h : SequencerFrame s s') : opN s' = opN s := by
  simp [Machine.opN, h.eng]

theorem SequencerFrame.readByte {s s' : State} (h : SequencerFrame s s') (a : Nat) : readByte s' a = readByte s a :=
  readByte_congr h.mem h.powerOns a

theorem SequencerFrame.msgBytes {s s' : State} (h : SequencerFrame s s') : msgBytes s' = msgBytes s :=
  msgBytes_congr h.opN h.mem h.powerOns

theorem SequencerFrame.commandFrame {s s' t : State} (h : SequencerFrame s s') (ht : CommandFrame s' t) :
    CommandFrame s t :=
  ⟨ht.cfg.trans h.cfg, ht.agenda.trans h.agenda, ht.rst.trans h.rst, ht.resp.trans h.resp, ht.ovr.trans h.ovr,
    ht.msgLen.trans h.msgLen, ht.keyLen.trans h.keyLen, ht.powerOns.trans h.powerOns⟩

/-- Everything the sequencer can come to: an error raised in READING, an error raised in VALIDATED by a failed
truncation, or the result delivered in CONSUMED (R231, R232). -/
theorem otpRun_cases (truncate : Bool) (s : State) :
    (∃ code s', (code = .keyTooShort ∨ code = .ioFailure) ∧ SequencerFrame s s' ∧ s'.ks = s.ks ∧
      s'.otpState = s.otpState ∧ otpRun truncate s = completeError code s') ∨
    (truncate = true ∧ ∃ s', SequencerFrame s s' ∧ s'.ks = s.ks ∧ s'.otpState = .validated ∧
      otpRun truncate s = completeError .ioFailure s') ∨
    (opN s ≤ s.ks.length ∧ ∃ s', SequencerFrame s s' ∧
      s'.ks = (if truncate then s.ks.take (s.ks.length - opN s) else s.ks) ∧ s'.otpState = .consumed ∧
      s'.lock = false ∧ otpRun truncate s =
        completeOk (deliver (xorZip (tailBytes (opN s) s.ks) (msgBytes s)) s.eng.nLat s')) := by
  have f1 : SequencerFrame s (takeAnswer s) := by constructor <;> simp
  have f2 : SequencerFrame s (takeAnswer (takeAnswer s)) := by constructor <;> simp
  have f3 : SequencerFrame s { takeAnswer (takeAnswer s) with otpState := .validated } := by constructor <;> simp
  rw [otpRun, otpValidate_eq]
  by_cases h1 : nextIoFail s = true
  · rw [if_pos h1]
    exact .inl ⟨_, _, .inr rfl, f1, by simp, by simp, rfl⟩
  rw [if_neg h1]
  by_cases h2 : s.ks.length < opN s
  · rw [if_pos h2]
    exact .inl ⟨_, _, .inl rfl, f1, by simp, by simp, rfl⟩
  rw [if_neg h2]
  by_cases h3 : nextIoFail (takeAnswer s) = true
  · rw [if_pos h3]
    exact .inl ⟨_, _, .inr rfl, f2, by simp, by simp, rfl⟩
  rw [if_neg h3]
  simp only [otpConsume_eq, f3.msgBytes, f3.opN]
  cases truncate
  · refine .inr (.inr ⟨by omega, { takeAnswer (takeAnswer s) with otpState := .consumed, lock := false },
      ?_, by simp, rfl, rfl, ?_⟩)
    · constructor <;> simp
    · simp
  · by_cases h4 : nextIoFail { takeAnswer (takeAnswer s) with otpState := .validated } = true
    · refine .inr (.inl ⟨rfl, takeAnswer { takeAnswer (takeAnswer s) with otpState := .validated },
        ?_, by simp, by simp, ?_⟩)
      · constructor <;> simp
      · rw [if_pos rfl, if_pos h4]
    · refine .inr (.inr ⟨by omega, { takeAnswer { takeAnswer (takeAnswer s) with otpState := .validated } with
        ks := s.ks.take (s.ks.length - opN s), otpState := .consumed, lock := false }, ?_, by simp, rfl, rfl, ?_⟩)
      · constructor <;> simp
      · rw [if_pos rfl, if_neg h4]
        simp

/-- Everything a command can come to: an error, raised before anything is delivered; NOP's completion; a digest; or an XOR
result, of which OTP_XOR.T alone has truncated the key store. -/
theorem exec_cases (i : Instr) (s t : State) (h : exec i s = .next t) :
    (∃ code s', code ≠ .none ∧ SequencerFrame s s' ∧ s'.ks = s.ks ∧ t = completeError code s' ∧
      (s'.otpState = s.otpState ∧ code ∈ [.capacity, .lengthMismatch] ∨
        ∃ b, i = .otpXor b ∧ code ∈ [.keyTooShort, .ioFailure] ∧
          (s'.otpState = .reading ∨ b = true ∧ code = .ioFailure ∧ s'.otpState = .validated))) ∨
    (i = .nop ∧ t = completeOk s) ∨
    ((i = .shaDigest ∨ i = .hmac) ∧ ∃ e, t = deliverDigest e s) ∨
    (i = .xor ∧ opN s ≤ s.cfg.bufCap ∧ opK s = opN s ∧
      t = completeOk (deliver (xorZip (keyBytes s) (msgBytes s)) s.eng.nLat s)) ∨
    (∃ b s', i = .otpXor b ∧ opN s ≤ s.cfg.bufCap ∧ opN s ≤ s.ks.length ∧ SequencerFrame s s' ∧
      s'.ks = (if b then s.ks.take (s.ks.length - opN s) else s.ks) ∧ s'.otpState = .consumed ∧ s'.lock = false ∧
      t = completeOk (deliver (xorZip (tailBytes (opN s) s.ks) (msgBytes s)) s.eng.nLat s')) := by
  have f0 : SequencerFrame s s := by constructor <;> rfl
  cases i with
  | nop => exact .inr (.inl ⟨rfl, (Host.Outcome.next.inj h).symm⟩)
  | shaDigest =>
    have h : execShaDigest s = .next t := h
    rw [execShaDigest_eq] at h
    have h := Host.Outcome.next.inj h
    split_ifs at h
    · exact .inl ⟨_, s, by simp, f0, rfl, h.symm, .inl (by simp)⟩
    · exact .inr (.inr (.inl ⟨.inl rfl, _, h.symm⟩))
  | hmac =>
    have h : execHmac s = .next t := h
    rw [execHmac_eq] at h
    have h := Host.Outcome.next.inj h
    split_ifs at h
    · exact .inl ⟨_, s, by simp, f0, rfl, h.symm, .inl (by simp)⟩
    · exact .inr (.inr (.inl ⟨.inr rfl, _, h.symm⟩))
  | xor =>
    have h : execXor s = .next t := h
    rw [execXor_eq] at h
    have h := Host.Outcome.next.inj h
    split_ifs at h
    · exact .inl ⟨_, s, by simp, f0, rfl, h.symm, .inl (by simp)⟩
    · exact .inl ⟨_, s, by simp, f0, rfl, h.symm, .inl (by simp)⟩
    · exact .inr (.inr (.inr (.inl ⟨rfl, by omega, by omega, h.symm⟩)))
  | otpXor b =>
    simp only [exec, execOtpXor, msgTooLong, decide_eq_true_eq] at h
    split_ifs at h with hc
    · exact .inl ⟨_, s, by simp, f0, rfl, (Host.Outcome.next.inj h).symm, .inl (by simp)⟩
    · have h := (Host.Outcome.next.inj h).symm
      have fr : SequencerFrame s { s with otpState := .reading, lock := true } := by constructor <;> rfl
      have g : ∀ s', SequencerFrame { s with otpState := .reading, lock := true } s' → SequencerFrame s s' :=
        fun s' f => ⟨f.cfg, f.agenda, f.rst, f.resp, f.ovr, f.msgLen, f.keyLen, f.eng, f.mem, f.powerOns⟩
      rcases otpRun_cases b { s with otpState := .reading, lock := true } with
        ⟨code, s', hcode, f, hk, ho, e⟩ | ⟨hb, s', f, hk, ho, e⟩ | ⟨hn, s', f, hk, ho, hl, e⟩
      · refine .inl ⟨code, s', ?_, g s' f, hk, h.trans e, .inr ⟨b, rfl, ?_, .inl ho⟩⟩
        · rcases hcode with rfl | rfl <;> simp
        · rcases hcode with rfl | rfl <;> simp
      · exact .inl ⟨_, s', by simp, g s' f, hk, h.trans e, .inr ⟨b, rfl, by simp, .inr ⟨hb, rfl, ho⟩⟩⟩
      · rw [fr.msgBytes, fr.opN] at e
        exact .inr (.inr (.inr (.inr ⟨b, s', rfl, by omega, hn, g s' f, hk, ho, hl, h.trans e⟩)))

/-- Every command answers a next state (R117). -/
theorem exec_ne_stop (i : Instr) (s : State) : ∃ t, exec i s = .next t := by
  cases i with
  | nop => exact ⟨_, rfl⟩
  | shaDigest => exact ⟨_, execShaDigest_eq s⟩
  | hmac => exact ⟨_, execHmac_eq s⟩
  | xor => exact ⟨_, execXor_eq s⟩
  | otpXor b =>
    simp only [exec, execOtpXor]
    split
    · exact ⟨_, rfl⟩
    · exact ⟨_, rfl⟩

end Sys2Proof.Laws
end

