-- ==== Sys2Proof/Laws/PerInstr.lean ====
section
/-! SUPPORT. Statements about every instruction as syntax, one lemma per constructor. -/

namespace Sys2Proof.Laws

/-- The word of an instruction has the fields R93's table gives the instruction, and they are those of a valid word
(R94). -/
def EncodedWordIsValid.Statement (i : Instr) : Prop := fieldsOf (encode i) = i.fields ∧ i.wf = true

theorem EncodedWordIsValid.nop : EncodedWordIsValid.Statement .nop := ⟨fieldsOf_wordOf _, rfl⟩

theorem EncodedWordIsValid.shaDigest : EncodedWordIsValid.Statement .shaDigest := ⟨fieldsOf_wordOf _, rfl⟩

theorem EncodedWordIsValid.hmac : EncodedWordIsValid.Statement .hmac := ⟨fieldsOf_wordOf _, rfl⟩

theorem EncodedWordIsValid.xor : EncodedWordIsValid.Statement .xor := ⟨fieldsOf_wordOf _, rfl⟩

theorem EncodedWordIsValid.otpXor (truncate : Bool) : EncodedWordIsValid.Statement (.otpXor truncate) :=
  ⟨fieldsOf_wordOf _, by cases truncate <;> rfl⟩

end Sys2Proof.Laws
end

