-- ==== Sys2Proof/Laws/Step.lean ====
section
/-! SUPPORT. Everything a bus transaction and a step can do, said once. -/

namespace Sys2Proof.Laws

open Sys2Proof.Machine Sys2Proof.Safety

/-- However a command ends, BUSY is 0 and DONE is 1, and what no command changes is unchanged (R115). -/
theorem exec_ended (i : Instr) (s t : State) (h : exec i s = .next t) : t.busy = false ∧ t.done = true ∧ CommandFrame s t := by
  rcases exec_cases i s t h with ⟨c, s', -, f, -, rfl, -⟩ | ⟨-, rfl⟩ | ⟨-, e, rfl⟩ | ⟨-, -, -, rfl⟩ | ⟨b, s', -, -, -, f, -, -, -, rfl⟩
  · exact ⟨rfl, rfl, f.commandFrame (endedError_completeError c s').frame⟩
  · exact ⟨rfl, rfl, commandFrame_completeOk s⟩
  · exact ⟨rfl, rfl, (deliverDigest_spec e s).2.2.2.2.1⟩
  · exact ⟨rfl, rfl, commandFrame_delivered _ _ s⟩
  · exact ⟨rfl, rfl, f.commandFrame (commandFrame_delivered _ _ s')⟩

/-- Everything a bus transaction can do: answer a bus error, take answers or draws for a read, or perform a write; the
rdata of a write's response is a draw. -/
theorem busTxn_cases (x : Txn) (s : State) :
    (∃ d r, busTxn x s = { s with draws := d, resp := r }) ∨
    (∃ t, locate s.cfg.bufCap (relAddr s.cfg x.addr) x.size = some t ∧
      ((x.dir = .rd ∧ ∃ e k d r, busTxn x s = { s with ksEnv := e, ksAsked := k, draws := d, resp := r }) ∨
       (x.dir = .wr ∧ ∃ d r, busTxn x s = { writeTarget t x.wdata s with draws := d, resp := r }))) := by
  cases h : locate s.cfg.bufCap (relAddr s.cfg x.addr) x.size with
  | none => 
    left
    rw [busTxn_of_not_located h, busError]
    cases x.dir
    · exact ⟨s.draws, _, rfl⟩
    · exact ⟨s.draws + 1, _, respond_freeRdata _ _ _⟩
  | some t =>
    right
    refine ⟨t, rfl, ?_⟩
    rw [busTxn_of_locate h]
    rw [performTxn]
    cases hd : x.dir
    · exact .inl ⟨rfl, (readTarget t s).2.ksEnv, (readTarget t s).2.ksAsked, (readTarget t s).2.draws,
        some ⟨.ok, (readTarget t s).1⟩, by simp only [respond]; rw [readTarget_state]⟩
    · exact .inr ⟨rfl, (writeTarget t x.wdata s).draws + 1, _, respond_freeRdata _ _ _⟩

/-- Everything a step can do: run the command in progress, or nothing, in the engine's turn; perform a bus transaction
outside reset; change `rst`; power on; place a key file. -/
theorem step_cases (s t : State) (h : step s = .next t) :
    (∃ s0, (s.agenda = [] ∧ s0 = s ∨ ∃ rest, s.agenda = .engine :: rest ∧ s0 = { s with agenda := rest }) ∧
      ((s.busy = false ∧ t = s0) ∨ (s.busy = true ∧ ∃ i, inProgress s = some i ∧ exec i s0 = .next t))) ∨
    (∃ x rest, s.agenda = .bus x :: rest ∧ s.rst = false ∧ t = busTxn x { s with agenda := rest }) ∨
    (∃ l rest, s.agenda = .rst l :: rest ∧ t = setRst l { s with agenda := rest }) ∨
    (∃ rest, s.agenda = .powerOn :: rest ∧ t = powerOn { s with agenda := rest }) ∨
    (∃ b rest, s.agenda = .keyFile b :: rest ∧ s.busy = false ∧ s.lock = false ∧ b.length < 2 ^ s.cfg.ksWidth ∧ t = { s with agenda := rest, ks := b }) := by
  have eng : ∀ s0 : State, s0.busy = s.busy → s0.eng = s.eng → engineTurn s0 = .next t →
      ((s.busy = false ∧ t = s0) ∨ (s.busy = true ∧ ∃ i, inProgress s = some i ∧ exec i s0 = .next t)) := by
    intro s0 hb he h
    unfold engineTurn at h
    split at h
    · rename_i hb'
      split at h
      · rename_i i hd
        refine .inr ⟨hb ▸ hb', i, ?_, h⟩
        rw [he] at hd
        simp [inProgress, ← hb, hb', hd, Decoded.toOption]
      · cases h
    · rename_i hb'
      exact .inl ⟨by rw [← hb]; simpa using hb', (Host.Outcome.next.inj h).symm⟩
  unfold step at h
  split at h
  · rename_i ha
    exact .inl ⟨s, .inl ⟨ha, rfl⟩, eng s rfl rfl h⟩
  · rename_i ev rest ha
    cases ev with
    | bus x =>
      right; left
      simp only [turn, busTurn] at h
      split at h
      · cases h
      · rename_i hr
        exact ⟨x, rest, ha, by simpa using hr, (Host.Outcome.next.inj h).symm⟩
    | engine => exact .inl ⟨_, .inr ⟨rest, ha, rfl⟩, eng _ rfl rfl h⟩
    | rst l => exact .inr (.inr (.inl ⟨l, rest, ha, (Host.Outcome.next.inj h).symm⟩))
    | powerOn => exact .inr (.inr (.inr (.inl ⟨rest, ha, (Host.Outcome.next.inj h).symm⟩)))
    | keyFile b =>
      simp only [turn, placeKeyFile] at h
      split_ifs at h with h1 h2
      have h3 := h1
      simp at h1
      refine .inr (.inr (.inr (.inr ⟨b, rest, ha, h1.1, h1.2, ?_, (Host.Outcome.next.inj h).symm⟩)))
      simpa [keyFileOk] using h2

end Sys2Proof.Laws
end

