-- ==== Sys2Proof/Tests/Slice0.lean ====
section
/-! SUPPORT. Tests. Expected values are those of spec/95_test_vectors.md (V numbers), or written out by hand from the rule
named. The second half shows, for every statement with hypotheses, a concrete case that meets them. -/

namespace Sys2Proof.Tests

open Sys2Proof.Machine Sys2Proof.Safety

/-! ## Well-formedness: each check refuses an ill-formed term -/

theorem test_wf_refuses_reserved_bits : ({ op := 0, t := false, rsv := 1 } : CmdFields).rsvZero = false := by decide

theorem test_wf_refuses_unknown_op : ({ op := 5, t := false, rsv := 0 } : CmdFields).opKnown = false := by decide

theorem test_wf_refuses_stray_truncate : ({ op := 3, t := true, rsv := 0 } : CmdFields).tAllowed = false := by decide

theorem test_wf_refuses_each :
    ({ op := 0, t := false, rsv := 1 } : CmdFields).wf = false ∧ ({ op := 5, t := false, rsv := 0 } : CmdFields).wf = false ∧
    ({ op := 3, t := true, rsv := 0 } : CmdFields).wf = false ∧ ({ op := 4, t := true, rsv := 0 } : CmdFields).wf = true := by
  decide

theorem test_wf_refuses_parameters :
    ({ Config.standard with bufCap := 63 } : Config).wf = false ∧
    ({ Config.standard with bufCap := 65537 } : Config).wf = false ∧
    ({ Config.standard with ksWidth := 33 } : Config).wf = false ∧ Config.standard.wf = true := by decide

theorem test_wf_refuses_width : ({ dir := .rd, addr := 0, size := 2, wdata := 0 } : Txn).sizeOk = false := by decide

theorem test_wf_refuses_long_key_file : keyFileOk { Config.standard with ksWidth := 0 } [0] = false := by decide

/-! ## Decoding: every word written out bit by bit from R90 and R93: RSV (23 bits), T (1), OP (8); V10's illegal words -/

theorem test_decode_nop : decode 0b00000000000000000000000_0_00000000 = .instr .nop := by decide

theorem test_decode_shaDigest : decode 0b00000000000000000000000_0_00000001 = .instr .shaDigest := by decide

theorem test_decode_hmac : decode 0b00000000000000000000000_0_00000010 = .instr .hmac := by decide

theorem test_decode_xor : decode 0b00000000000000000000000_0_00000011 = .instr .xor := by decide

theorem test_decode_otpXor : decode 0b00000000000000000000000_0_00000100 = .instr (.otpXor false) := by decide

theorem test_decode_otpXor_T : decode 0b00000000000000000000000_1_00000100 = .instr (.otpXor true) := by decide

theorem test_decode_illegal :
    [0x00000005, 0x000000FF, 0x00000100, 0x00000101, 0x00000103, 0x00000105].map (decode ∘ BitVec.ofNat 32) =
      [.illegal .unknownOp, .illegal .unknownOp, .illegal .strayTruncate, .illegal .strayTruncate,
        .illegal .strayTruncate, .illegal .unknownOp] ∧
    [0x00000201, 0x80000001, 0xFFFFFFFF].map (decode ∘ BitVec.ofNat 32) =
      [.illegal .reservedBits, .illegal .reservedBits, .illegal .reservedBits] := by decide

/-! ## One step on a small state -/

/-- An idle machine holding these operands, key store and answers. -/
def idle (msg key ks : List Byte) (env : List Bool) : State :=
  { State.reset with
    msgLen := BitVec.ofNat 32 msg.length
    keyLen := BitVec.ofNat 32 key.length
    mem := memWriteBytes (memWriteBytes (memWriteBytes [] 0x10000 msg) 0x20000 key) 0x30000 [0xaa, 0xbb, 0xcc]
    ks := ks
    ksEnv := env }

/-- That machine after the CMD write of an instruction. -/
def accepted (i : Instr) (msg key ks : List Byte) (env : List Bool) : State :=
  presentCommand (encode i) (idle msg key ks env)

/-- A machine in the middle of an instruction with lengths latched, no operand written. -/
def latched (i : Instr) (n k : Word) : State :=
  presentCommand (encode i) { State.reset with msgLen := n, keyLen := k }

/-- What holds of the next state, if a step answers one. -/
def holds (o : Host.Outcome State Fault Refusal) (p : State → Bool) : Bool :=
  match o with
  | .next s => p s
  | .fault _ => false
  | .refused _ => false

/-- OUT[0..n). -/
def outBytes (n : Nat) (s : State) : List Byte := readBytes s 0x30000 n

def abc : List Byte := [0x61, 0x62, 0x63]

def keyFile8 : List Byte := [0x00, 0x11, 0x22, 0x33, 0x44, 0x55, 0x66, 0x77]

/-- V70: from STATUS 0x32, NOP gives 0x02, with OUT_LEN unchanged. -/
theorem test_nop : holds (step (presentCommand 0 { idle [] [] [] [] with err := .lengthMismatch, done := true, outLen := 32 }))
    (fun s => statusWord s == 0x2 && s.outLen == 32) = true := by decide

/-- V2. -/
theorem test_shaDigest_abc : holds (step (accepted .shaDigest abc [] [] []))
    (fun s => s.eng.h == { h0 := 0xba7816bf, h1 := 0x8f01cfea, h2 := 0x414140de, h3 := 0x5dae2223
                           h4 := 0xb00361a3, h5 := 0x96177a9c, h6 := 0xb410ff61, h7 := 0xf20015ad }) = true := by
  decide +kernel

/-- V54. -/
theorem test_shaDigest_capacity : holds (step (latched .shaDigest 4097 0))
    (fun s => statusWord s == 0x22 && s.outLen == 0) = true := by decide

/-- V61, the empty key and the empty message. -/
theorem test_hmac_empty : holds (step (accepted .hmac [] [] [] []))
    (fun s => s.eng.h == { h0 := 0xb613679a, h1 := 0x0814d9ec, h2 := 0x772f95d7, h3 := 0x78c35fc5
                           h4 := 0xff1697c4, h5 := 0x93715653, h6 := 0xc6c71214, h7 := 0x4292c5ad }) = true := by
  decide +kernel

/-- V62. -/
theorem test_hmac_capacity : holds (step (latched .hmac 0 4097))
    (fun s => statusWord s == 0x22 && s.outLen == 0) = true := by decide

/-- V63. -/
theorem test_xor_hello : holds (step (accepted .xor [0x48, 0x65, 0x6c, 0x6c, 0x6f] [0x01, 0x02, 0x03, 0x04, 0x05] [] []))
    (fun s => outBytes 5 s == [0x49, 0x67, 0x6f, 0x68, 0x6a] && s.outLen == 5 && statusWord s == 0x2) = true := by
  decide +kernel

/-- V63, KEY_LEN 4 and MSG_LEN 5. -/
theorem test_xor_mismatch : holds (step (accepted .xor [0x48, 0x65, 0x6c, 0x6c, 0x6f] [0x01, 0x02, 0x03, 0x04] [] []))
    (fun s => outBytes 3 s == [0xaa, 0xbb, 0xcc] && s.outLen == 0 && statusWord s == 0x32) = true := by decide +kernel

/-- V64, first row. -/
theorem test_otpXor_truncating : holds (step (accepted (.otpXor true) abc [] keyFile8 [false, false, false]))
    (fun s => outBytes 3 s == [0x34, 0x04, 0x14] && s.ks == [0x00, 0x11, 0x22, 0x33, 0x44] && statusWord s == 0x302) = true := by
  decide +kernel

/-- V64, fifth row: the truncation fails. -/
theorem test_otpXor_truncate_fails : holds (step (accepted (.otpXor true) abc [] keyFile8 [false, false, true]))
    (fun s => outBytes 3 s == [0xaa, 0xbb, 0xcc] && s.ks == keyFile8 && statusWord s == 0x252 && s.outLen == 0) = true := by
  decide +kernel

/-! ## The word functions and the first round of "abc" -/

/-- V30 and V40, the row of x = 12345678. -/
theorem test_sigmas : [rotr 1 0x12345678, rotr 31 0x12345678, smallSigma0 0x12345678, smallSigma1 0x12345678,
    bigSigma0 0x12345678, bigSigma1 0x12345678] =
    [0x091a2b3c, 0x2468acf0, 0xe7fce6ee, 0xa1f78649, 0x66146474, 0x3561abda] := by decide

/-- V41, the third row. -/
theorem test_ch_maj : ch 0xf0f0f0f0 0xff00ff00 0xcccccccc = 0xfc0cfc0c ∧ maj 0xf0f0f0f0 0xff00ff00 0xcccccccc = 0xfcc0fcc0 := by
  decide

/-- V43, t = 0. -/
theorem test_round_zero : round (roundConstant 0) 0x61626380 (workOfHash initialHash) =
    { a := 0x5d6aebcd, b := 0x6a09e667, c := 0xbb67ae85, d := 0x3c6ef372
      e := 0xfa2a4622, f := 0x510e527f, g := 0x9b05688c, h := 0x1f83d9ab } := by decide

/-- V31: W[16], W[17] and W[63] of the padded "abc" block. -/
theorem test_schedule_abc : [16, 17, 63].map (fun t => (schedule (pad abc)).getD t 0) =
    [0x61626380, 0x000f0000, 0x12b1edeb] := by decide +kernel

/-! ## The bus -/

/-- The response data of one transaction. -/
def readData (x : Txn) (s : State) : Option BusResp := (busTxn x s).resp

/-- V20: a word written to MSG, read back as a word and as its second byte. -/
theorem test_lane_order :
    let s := busTxn { dir := .wr, addr := 0x10000, size := 4, wdata := 0x61626380 } State.reset
    s.mem = [(0x10000, 0x61), (0x10001, 0x62), (0x10002, 0x63), (0x10003, 0x80)] ∧
    readData { dir := .rd, addr := 0x10001, size := 1, wdata := 0 } s = some ⟨.ok, 0x62⟩ := by decide +kernel

/-- V21: the bus errors, in the table's order. -/
theorem test_bus_errors :
    [(0x1C, 4), (0x40, 4), (0x2, 4), (0x4, 1), (0x10002, 4), (0x11000, 4), (0x11000, 1), (0x40000, 4), (0x10000, 2)].map
      (fun a => readData { dir := .rd, addr := BitVec.ofNat 32 a.1, size := a.2, wdata := 0 } State.reset) =
    List.replicate 9 (some ⟨.busError, 0⟩) := by decide +kernel

/-- V22: the reads of CMD and BUF_CAP. -/
theorem test_bufCap_reads : [0x0, 0x18].map (fun a => readData { dir := .rd, addr := a, size := 4, wdata := 0 } State.reset) =
    [some ⟨.ok, 0⟩, some ⟨.ok, 0x1000⟩] := by decide +kernel

/-- V71: a MSG_LEN write while busy is dropped, and STATUS reads 5. -/
theorem test_busy_write :
    let s := busTxn { dir := .wr, addr := 0x8, size := 4, wdata := 5 } (accepted .shaDigest abc [] [] [])
    statusWord s = 0x5 ∧ s.msgLen = 3 := by decide +kernel

/-- R237: in the middle of an OTP_XOR.T a reset leaves the key store or its initial part, by a free value. -/
theorem test_reset_key_store : ksAfterReset (accepted (.otpXor true) abc [] keyFile8 []) =
    if Config.freeBit 0 then [0x00, 0x11, 0x22, 0x33, 0x44] else keyFile8 := by
  simp only [ksAfterReset, show truncationAtRisk (accepted (.otpXor true) abc [] keyFile8 []) = true by decide +kernel,
    Bool.true_and]
  rfl

/-- R294: a length above BUF_CAP leaves the same two outcomes, where the key file is as long as that. -/
theorem test_reset_key_store_over_capacity :
    truncationAtRisk { latched (.otpXor true) 4097 0 with ks := List.replicate 4097 0x77 } = true := by decide +kernel

/-- R91: the response to a byte write has a byte, zero-extended, for its rdata. -/
theorem test_write_response : readData { dir := .wr, addr := 0x10000, size := 1, wdata := 0xFFFFFF61 } State.reset =
    some ⟨.ok, (Config.freeByte 0).setWidth 32⟩ := by rfl

/-- R97, R98: what a script line puts on the bus. -/
theorem test_script_lines : lineTxn (scriptCmd Config.standard (.otpXor true)) = some ⟨.wr, 0, 4, 0x104⟩ ∧
    lineTxn (.wr8 (ramBusAddr Config.standard .key 1) 0x65) = some ⟨.wr, 0x20001, 1, 0x65⟩ ∧
    lineTxn (scriptClrOvr Config.standard) = some ⟨.wr, 4, 4, 4⟩ := by decide +kernel

/-! ## Every memory operation keeps the canonical form (the laws), on one write in the middle -/

theorem test_memory_write : memWrite [(1, 0x10), (3, 0x30)] 2 0x20 = [(1, 0x10), (2, 0x20), (3, 0x30)] := by decide

/-! ## Witnesses: a concrete case that meets the hypotheses of each statement, at the boundaries of its clauses -/

/-- A machine with these latches and key store, a command in progress, and these answers to come. -/
def running (n k : Word) (ks : List Byte) (env : List Bool) : State :=
  { State.reset with busy := true, ks := ks, ksEnv := env, eng := { Engine.reset with nLat := n, kLat := k } }

/-- A machine whose next turn is the host's. -/
def hostNext (x : Txn) (s : State) : State := { s with agenda := [.bus x] }

theorem witness_WordDecodesExactlyWhenValid :
    ((0x00000104 : Word).extractLsb' 9 23 = 0 ∧ (0x00000104 : Word).extractLsb' 0 8 = 0x04 ∧
      (0x00000104 : Word).getLsbD 8 = true) ∧
    (0x00000200 : Word).extractLsb' 9 23 ≠ 0 ∧ (0x00000005 : Word).extractLsb' 0 8 = 0x05 ∧
    ((0x00000103 : Word).getLsbD 8 = true ∧ (0x00000103 : Word).extractLsb' 0 8 = 0x03) := by decide

theorem witness_StepTakesTheNextTurnAndRunsTheLatchedCommand :
    let s := accepted .xor abc abc [] []
    let x := regRead Config.standard .status
    (s.agenda = [] ∧ s.busy = true ∧ decode (latchedWord s.eng) = .instr .xor) ∧
    ({ s with agenda := [.engine, .powerOn] } : State).agenda = .engine :: [.powerOn] ∧
    (State.reset.agenda = [] ∧ State.reset.busy = false) ∧ (hostNext x s).agenda = .bus x :: [] ∧
    ({ s with agenda := [.rst true, .keyFile []] } : State).agenda = .rst true :: [.keyFile []] := by decide +kernel

theorem witness_PresentedWordRunsInTheNextStep : decode (BitVec.ofNat 32 0x104) = .instr (.otpXor true) := by decide

theorem witness_OnlyAValidCommandWriteSetsBusy :
    let s := hostNext (regWrite Config.standard .cmd 0x1) State.reset
    s.busy = false ∧ holds (step s) (fun t => t.busy) = true := by decide +kernel

theorem witness_BusyFallsOnlyAtCompletionOrReset :
    (latched .nop 0 0).busy = true ∧ holds (step (latched .nop 0 0)) (fun t => !t.busy) = true ∧
    holds (step { latched .nop 0 0 with agenda := [.rst true] }) (fun t => !t.busy) = true ∧
    holds (step { latched .nop 0 0 with agenda := [.powerOn] }) (fun t => !t.busy) = true := by decide +kernel

theorem witness_StatusFlagsAreStickyUntilTheirEvents :
    let s := hostNext (regWrite Config.standard .status 0x4) { State.reset with ovr := true }
    s.ovr = true ∧ holds (step s) (fun t => !t.ovr) = true ∧
    holds (step { s with agenda := [.rst true] }) (fun t => !t.ovr) = true ∧
    holds (step { s with agenda := [.powerOn] }) (fun t => !t.ovr) = true ∧
    (let u := hostNext (regWrite Config.standard .cmd 0x5) State.reset
     u.busy = false ∧ holds (step u) (fun t => t.err != u.err && t.done != u.done) = true) := by decide +kernel

theorem witness_ValidCommandWriteIsAccepted :
    State.reset.rst = false ∧ State.reset.busy = false ∧ decode 0x00000104 = .instr (.otpXor true) := by decide

theorem witness_IllegalCommandWriteIsRejected :
    State.reset.rst = false ∧ State.reset.busy = false ∧ decode 0x80000001 = .illegal .reservedBits := by decide

theorem witness_ShaDigestDeliversTheDigest :
    opN (running 4096 0 [] []) ≤ (running 4096 0 [] []).cfg.bufCap ∧
    opN (running 0 0 [] []) ≤ (running 0 0 [] []).cfg.bufCap := by decide

theorem witness_HmacDeliversTheNestedHash :
    opN (running 4096 65 [] []) ≤ (running 4096 65 [] []).cfg.bufCap ∧
    opK (running 4096 65 [] []) ≤ (running 4096 65 [] []).cfg.bufCap := by decide

theorem witness_XorDeliversTheBytewiseXor :
    opN (running 4096 4096 [] []) ≤ (running 4096 4096 [] []).cfg.bufCap ∧
    opK (running 4096 4096 [] []) = opN (running 4096 4096 [] []) := by decide

theorem witness_OtpXorUsesTheKeyTail :
    let s := running 8 0 keyFile8 [false, false]
    opN s ≤ s.cfg.bufCap ∧ opN s ≤ s.ks.length ∧ requestFails 0 s = false ∧ requestFails 1 s = false := by decide

theorem witness_OtpXorTruncatingConsumesTheKeyTail :
    let s := running 3 0 keyFile8 [false, false, false]
    opN s ≤ s.cfg.bufCap ∧ opN s ≤ s.ks.length ∧
    requestFails 0 s = false ∧ requestFails 1 s = false ∧ requestFails 2 s = false := by decide

theorem witness_CapacityIsCheckedFirst :
    let s := running 4097 0 [] []
    let s' := running 0 4097 [] []
    (s.cfg.bufCap < opN s ∧ Instr.shaDigest ≠ .nop) ∧ (s'.cfg.bufCap < opK s' ∧ (Instr.hmac = .hmac ∨ Instr.hmac = .xor)) := by
  decide

theorem witness_XorReportsLengthMismatch :
    let s := running 4096 4095 [] []
    opN s ≤ s.cfg.bufCap ∧ opK s ≤ s.cfg.bufCap ∧ opK s ≠ opN s := by decide

theorem witness_OtpXorReportsKeyTooShort :
    let s := running 9 0 keyFile8 [false]
    opN s ≤ s.cfg.bufCap ∧ s.ks.length < opN s ∧ requestFails 0 s = false := by decide

theorem witness_OtpXorReportsFailureBeforeTheKeyIsRead :
    let s := running 9 0 keyFile8 [true]
    let s' := running 8 0 keyFile8 [false, true]
    (opN s ≤ s.cfg.bufCap ∧ requestFails 0 s = true) ∧
    (opN s' ≤ s'.cfg.bufCap ∧ opN s' ≤ s'.ks.length ∧ requestFails 0 s' = false ∧ requestFails 1 s' = true) := by decide

theorem witness_OtpXorReportsFailedTruncation :
    let s := running 0 0 keyFile8 [false, false, true]
    opN s ≤ s.cfg.bufCap ∧ opN s ≤ s.ks.length ∧
    requestFails 0 s = false ∧ requestFails 1 s = false ∧ requestFails 2 s = true := by decide

theorem witness_EveryErrorIsPrecise :
    holds (exec .xor (running 2 1 [] [])) (fun t => t.err == .lengthMismatch) = true ∧
    holds (exec (.otpXor true) (running 0 0 [] [false, false, true])) (fun t => t.err == .ioFailure) = true := by decide

theorem witness_OtpStateShowsHowFarTheSequencerGot :
    let s := running 1 0 [0x77] [false, false]
    (s.otpState = .idle ∧ s.lock = false ∧ holds (exec (.otpXor false) s) (fun t => t.err == .none) = true) ∧
    holds (exec (.otpXor false) (running 4097 0 [] [])) (fun t => t.err == .capacity) = true ∧
    holds (exec (.otpXor false) (running 1 0 [] [false])) (fun t => t.err == .keyTooShort) = true ∧
    holds (exec (.otpXor false) (running 1 0 [] [true])) (fun t => t.err == .ioFailure) = true ∧
    holds (exec (.otpXor true) (running 0 0 [] [false, false, true])) (fun t => t.err == .ioFailure) = true := by decide

theorem witness_CommandsWriteOnlyTheDeclaredResult :
    holds (exec .xor (running 2 2 [] [])) (fun t => t.err == .none && t.outLen == 2) = true := by decide

theorem witness_HashingReadsOnlyTheDeclaredOperands :
    let s := accepted .hmac abc abc [] []
    let s' := { s with mem := memWrite s.mem 0x10003 0x99, eng := { s.eng with h := initialHash } }
    opN s ≤ s.cfg.bufCap ∧ opN s' = opN s ∧ ramBytes s' .msg (opN s) = ramBytes s .msg (opN s) ∧
    opK s ≤ s.cfg.bufCap ∧ opK s' = opK s ∧ ramBytes s' .key (opK s) = ramBytes s .key (opK s) ∧ s'.mem ≠ s.mem := by
  decide +kernel

theorem witness_BusyWritesDoNotChangeTheResult :
    (latched .xor 2 2).busy = true ∧ (regWrite Config.standard .msgLen 5).dir = .wr := by decide

theorem witness_OnlyATruncatingOtpXorChangesTheKeyStore :
    holds (exec (.otpXor true) (running 1 0 [0x77] [false, false, false])) (fun t => t.err == .none && t.ks == []) = true := by
  decide

theorem witness_NoStepAltersAKeyByte :
    let s := accepted (.otpXor true) [0x61] [] [0x66, 0x77] [false, false, false]
    holds (step s) (fun t => t.ks == [0x66]) = true ∧ s.agenda = [] := by decide +kernel

theorem witness_NoKeyPositionIsUsedTwice :
    holds (exec (.otpXor true) (running 1 0 [0x66, 0x77] [false, false, false]))
      (fun t => t.err == .none && t.ks == [0x66]) = true ∧
    holds (exec (.otpXor false) (running 1 0 [0x66] [false, false])) (fun t => t.err == .none) = true := by decide

theorem witness_WordFunctionsActBitByBit : (0 < 1 ∧ 1 < 32 ∧ 0 < 32) ∧ (0 < 31 ∧ 31 < 32 ∧ 31 < 32) := by decide

theorem witness_ByteOrderIsBigEndian : 0 + 4 ≤ [(0x61 : Byte), 0x62, 0x63, 0x80].length ∧ 3 < 4 ∧ 7 < 8 := by decide

theorem witness_ConstantsAreTheRootsOfThePrimes :
    (Nat.Prime 2 ∧ Nat.count Nat.Prime 2 = 0) ∧ (Nat.Prime 311 ∧ Nat.count Nat.Prime 311 = 63) := by decide +kernel

theorem witness_ScheduleFollowsTheRecurrence : (pad abc).length = 64 := by decide

theorem witness_BlocksMakeUpThePaddedStream :
    0 < blockCount (pad []) ∧ 56 ≤ (List.replicate 56 (0 : Byte)).length % 64 ∧
    56 ≤ (List.replicate 63 (0 : Byte)).length % 64 := by decide

theorem witness_KeyPaddingHasThreeCases :
    64 < (List.replicate 65 (0 : Byte)).length ∧ (List.replicate 63 (0 : Byte)).length < 64 ∧
    (List.replicate 64 (0 : Byte)).length = 64 := by decide

theorem witness_XorIsAnInvolution : abc.length = [(0x01 : Byte), 0x02, 0x03].length := by decide

theorem witness_IllegalAccessIsABusErrorAndChangesNothing :
    State.reset.rst = false ∧ State.reset.cfg.wf = true ∧
    ((wordRead Config.standard .out 4092).addr - State.reset.cfg.coreBase).toNat = windowBase .out + 4092 ∧
    ((byteRead Config.standard .out 4096).addr - State.reset.cfg.coreBase).toNat = windowBase .out + 4096 := by decide

theorem witness_WordWriteIsBigEndianAndReadsBack :
    State.reset.rst = false ∧ State.reset.busy = false ∧ State.reset.cfg.wf = true ∧ Window.key ≠ .out ∧ 4092 % 4 = 0 ∧
    4092 + 4 ≤ State.reset.cfg.bufCap := by decide

theorem witness_ByteWriteChangesOneByteAndReadsBack :
    State.reset.rst = false ∧ State.reset.busy = false ∧ State.reset.cfg.wf = true ∧ Window.msg ≠ .out ∧
    4095 < State.reset.cfg.bufCap := by decide

theorem witness_LengthRegistersStoreAnyValue : State.reset.rst = false ∧ State.reset.busy = false := by decide

theorem witness_ReadOnlyLocationsIgnoreWrites :
    State.reset.rst = false ∧ State.reset.cfg.wf = true ∧ (0x3 : Word).getLsbD 2 = false ∧ 4095 < State.reset.cfg.bufCap ∧
    4092 % 4 = 0 ∧ 4092 + 4 ≤ State.reset.cfg.bufCap := by decide

theorem witness_StatusWriteClearsOverrun : State.reset.rst = false ∧ (0x4 : Word).getLsbD 2 = true := by decide

theorem witness_BusyWritesAreDroppedAndSetOverrun :
    let s := latched .nop 0 0
    s.rst = false ∧ s.busy = true ∧ s.cfg.wf = true ∧ 4095 < s.cfg.bufCap ∧ 4092 + 4 ≤ s.cfg.bufCap := by decide

theorem witness_StatusReadShowsTheFlags : State.reset.rst = false := by decide

theorem witness_ReadsHaveNoSideEffect :
    let s := latched .nop 0 0
    (s.rst = false ∧ s.busy = true ∧ (regRead s.cfg .bufCap).dir = .rd ∧ relAddr s.cfg (regRead s.cfg .bufCap).addr = 0x018) ∧
    relAddr s.cfg (byteRead s.cfg .key 4095).addr = 0x20FFF ∧
    (State.reset.rst = false ∧ State.reset.busy = false ∧
      relAddr State.reset.cfg (byteRead Config.standard .out 0).addr = 0x30000) ∧
    (busTxn { regRead s.cfg .ksSize with size := 1 } s).resp.map BusResp.resp = some .busError := by decide +kernel

theorem witness_KeyStoreSizeReadIsLive :
    State.reset.rst = false ∧ State.reset.busy = false ∧ requestFails 0 { State.reset with ksEnv := [true] } = true ∧
    requestFails 0 { State.reset with ksEnv := [false] } = false := by decide

theorem witness_ReadsReturnTheStoredValues :
    let s := latched .nop 0 0
    (State.reset.rst = false ∧ State.reset.busy = false ∧ State.reset.cfg.wf = true ∧ 4095 < State.reset.cfg.bufCap) ∧
    (s.rst = false ∧ s.busy = true ∧ s.cfg.wf = true ∧ Window.msg ≠ .out ∧ 4092 % 4 = 0 ∧ 4092 + 4 ≤ s.cfg.bufCap) := by decide

theorem witness_BusyReadsRevealNoResult :
    let s := latched .shaDigest 3 0
    s.rst = false ∧ s.busy = true ∧ s.cfg.wf = true ∧ (byteRead s.cfg .out 0).dir = .rd ∧
    (∀ a, (a < windowBase .out ∨ windowBase .out + 0x10000 ≤ a) → memFind [(0x30000, 0x77)] a = memFind s.mem a) := by
  refine ⟨by decide, by decide, by decide, by decide, fun a h => ?_⟩
  simp only [windowBase] at h
  show memFind [(0x30000, 0x77)] a = none
  simp only [memFind]
  rw [if_neg (by omega)]

theorem witness_TurnsOutsideTheSpecStopByName :
    ({ State.reset with rst := true } : State).rst = true ∧ (latched .nop 0 0).busy = true ∧
    (State.reset.busy = false ∧ State.reset.lock = false ∧ keyFile8.length < 2 ^ State.reset.cfg.ksWidth) := by decide

theorem witness_EveryStepKeepsTheInvariant :
    let s := accepted .xor abc abc keyFile8 []
    Inv s ∧ holds (step s) (fun t => t.outLen == 3) = true := by
  refine ⟨?_, by decide +kernel⟩
  constructor <;> decide +kernel

theorem witness_SoundStatesStopOnlyOutsideTheSpec :
    let s := hostNext (regRead Config.standard .status) (accepted .xor abc abc keyFile8 [])
    Inv s ∧ s.rst = false ∧ s.agenda.length = 1 := by
  refine ⟨?_, by decide, by decide⟩
  constructor <;> decide +kernel

theorem witness_HostShaDigestRunsToTheResult :
    let s := { State.reset with msgLen := 4096 }
    s.rst = false ∧ s.busy = false ∧ s.msgLen.toNat ≤ s.cfg.bufCap ∧ s.cfg.wf = true := by decide

end Sys2Proof.Tests
end

