-- ==== Sys2Proof/Proofs/WordFunctions.lean ====
section
/-! PROOF. The word functions bit by bit, and the big-endian byte strings byte by byte. -/

namespace Sys2Proof.Proofs

open Sys2Proof.Machine Sys2Proof.Laws

/-! ## The word functions, bit by bit -/

/-- Of the two shifts that make a rotation, one reaches each bit: the right shift below bit 32 − n, the left shift above it. -/
theorem rotr_getLsbD (x : Word) (n i : Nat) (hn : n < 32) (hi : i < 32) :
    (rotr n x).getLsbD i = x.getLsbD ((i + n) % 32) := by
  rw [rotr, BitVec.getLsbD_or, BitVec.getLsbD_ushiftRight, BitVec.getLsbD_shiftLeft]
  by_cases h : i + n < 32
  · rw [Nat.mod_eq_of_lt h]
    simp [show i < 32 - n by omega, Nat.add_comm]
  · have hwrap : (i + n) % 32 = i - (32 - n) := by omega
    rw [hwrap, BitVec.getLsbD_of_ge x (n + i) (by omega)]
    simp [hi, show ¬ i < 32 - n by omega]

theorem shr_getLsbD (x : Word) (n i : Nat) :
    (shr n x).getLsbD i = (decide (i + n < 32) && x.getLsbD (i + n)) := by
  rw [shr, BitVec.getLsbD_ushiftRight, Nat.add_comm n i]
  by_cases h : i + n < 32
  · simp [h]
  · rw [BitVec.getLsbD_of_ge x (i + n) (by omega), Bool.and_false]

theorem ch_getLsbD (x y z : Word) (i : Nat) (hi : i < 32) :
    (ch x y z).getLsbD i = if x.getLsbD i then y.getLsbD i else z.getLsbD i := by
  simp only [ch, BitVec.getLsbD_xor, BitVec.getLsbD_and, BitVec.getLsbD_not, hi]
  cases x.getLsbD i <;> simp

theorem maj_getLsbD_iff (x y z : Word) (i : Nat) :
    (maj x y z).getLsbD i = true ↔ 2 ≤ (x.getLsbD i).toNat + (y.getLsbD i).toNat + (z.getLsbD i).toNat := by
  have majority : ∀ a b c : Bool, (a && b ^^ a && c ^^ b && c) = true ↔ 2 ≤ a.toNat + b.toNat + c.toNat := by decide
  simp only [maj, BitVec.getLsbD_xor, BitVec.getLsbD_and, majority]

/-- Settles O31: each sigma is the exclusive-or of rotations and a shift, whose bits `rotr_getLsbD` and `shr_getLsbD` place. -/
theorem wordFunctionsActBitByBit : Obligations.WordFunctionsActBitByBit := by
  unfold Obligations.WordFunctionsActBitByBit
  intro x y z i hi
  have rot : ∀ n, n < 32 → (rotr n x).getLsbD i = x.getLsbD ((i + n) % 32) := fun n hn => rotr_getLsbD x n i hn hi
  refine ⟨fun n _ hn => ⟨rot n hn, shr_getLsbD x n i⟩, ?_, ?_, ?_, ?_, ch_getLsbD x y z i hi, maj_getLsbD_iff x y z i⟩
  · simp only [smallSigma0, BitVec.getLsbD_xor, rot 7 (by decide), rot 18 (by decide), shr_getLsbD]
  · simp only [smallSigma1, BitVec.getLsbD_xor, rot 17 (by decide), rot 19 (by decide), shr_getLsbD]
  · simp only [bigSigma0, BitVec.getLsbD_xor, rot 2 (by decide), rot 13 (by decide), rot 22 (by decide)]
  · simp only [bigSigma1, BitVec.getLsbD_xor, rot 6 (by decide), rot 11 (by decide), rot 25 (by decide)]

/-! ## Big-endian byte strings, byte by byte -/

theorem be32_drop_toNat (b : List Byte) (i : Nat) : (be32 (b.drop i)).toNat =
    (b.getD i 0).toNat * 2 ^ 24 + (b.getD (i + 1) 0).toNat * 2 ^ 16 + (b.getD (i + 2) 0).toNat * 2 ^ 8 +
      (b.getD (i + 3) 0).toNat := by
  have getD_drop : ∀ j, (b.drop i).getD j 0 = b.getD (i + j) 0 := fun j => by
    rw [List.getD_eq_getElem?_getD, List.getElem?_drop, List.getD_eq_getElem?_getD]
  simp only [be32, wordOfBytes_toNat, getD_drop, Nat.add_zero, Nat.reducePow]

theorem beBytes_getD (w : Word) (j : Nat) (hj : j < 4) : (beBytes w).getD j 0 = w.extractLsb' (24 - 8 * j) 8 := by
  match j, hj with
  | 0, _ | 1, _ | 2, _ | 3, _ => rfl

/-- In a serialized list of words, the bytes 4·i to 4·i + 3 are those of word i. -/
theorem flatMap_beBytes_getD (ws : List Word) (i j : Nat) (hi : i < ws.length) (hj : j < 4) :
    (ws.flatMap beBytes).getD (4 * i + j) 0 = (ws.getD i 0).extractLsb' (24 - 8 * j) 8 := by
  induction ws generalizing i with
  | nil => simp at hi
  | cons w ws ih =>
    rw [List.flatMap_cons]
    cases i with
    | zero =>
      rw [Nat.mul_zero, Nat.zero_add, List.getD_append _ _ _ _ (by simpa using hj), beBytes_getD w j hj,
        List.getD_cons_zero]
    | succ i =>
      have hskip : 4 * (i + 1) + j - 4 = 4 * i + j := by omega
      rw [List.getD_append_right _ _ _ _ (by rw [beBytes_length]; omega), beBytes_length, hskip,
        ih i (Nat.lt_of_succ_lt_succ hi), List.getD_cons_succ]

theorem ser_getD (h : Hash) (i : Fin 8) (j : Nat) (hj : j < 4) :
    (ser h).getD (4 * i.val + j) 0 = (digestWord h i).extractLsb' (24 - 8 * j) 8 :=
  flatMap_beBytes_getD (hashWords h) i j i.isLt hj

/-- A field of a field is the field at the sum of the two offsets, when it lies inside. -/
theorem extractLsb'_extractLsb' {n : Nat} (v : BitVec n) (start offset outer inner : Nat) (h : offset + inner ≤ outer) :
    (v.extractLsb' start outer).extractLsb' offset inner = v.extractLsb' (start + offset) inner := by
  ext k hk
  simp [show offset + k < outer by omega, Nat.add_assoc]

/-- The first four bytes come from the high half of the value, the last four from the low half. -/
theorem be64_getD (v : BitVec 64) (j : Nat) (hj : j < 8) : (be64 v).getD j 0 = v.extractLsb' (56 - 8 * j) 8 := by
  by_cases h : j < 4
  · rw [be64, List.getD_append _ _ _ _ (by rwa [beBytes_length]), beBytes_getD _ j h,
      extractLsb'_extractLsb' v 32 (24 - 8 * j) 32 8 (by omega), show 32 + (24 - 8 * j) = 56 - 8 * j by omega]
  · rw [be64, List.getD_append_right _ _ _ _ (by rw [beBytes_length]; omega), beBytes_length,
      beBytes_getD _ (j - 4) (by omega), extractLsb'_extractLsb' v 0 (24 - 8 * (j - 4)) 32 8 (by omega),
      show 0 + (24 - 8 * (j - 4)) = 56 - 8 * j by omega]

/-- Settles O39, by the byte that each serialization has at each place. -/
theorem byteOrderIsBigEndian : Obligations.ByteOrderIsBigEndian := by
  unfold Obligations.ByteOrderIsBigEndian
  exact ⟨fun b i _ => be32_drop_toNat b i, fun w => ⟨beBytes_length w, beBytes_getD w⟩,
    fun v => ⟨be64_length v, be64_getD v⟩, fun h => ⟨ser_length h, ser_getD h⟩⟩

end Sys2Proof.Proofs
end

