-- ==== Sys2Proof/Proofs/Encoding.lean ====
section
/-! PROOF. The decoder by the fields of the command word, and the words it accepts. -/

namespace Sys2Proof.Proofs

open Sys2Proof.Laws

/-! ## Valid fields are the fields of an instruction -/

/-- The three conditions of R94. -/
theorem fields_wf_iff (f : CmdFields) : f.wf = true ↔
    f.rsv = 0 ∧ f.op ∈ [0x00, 0x01, 0x02, 0x03, 0x04] ∧ (f.t = false ∨ f.op = 0x04) := by
  simp [CmdFields.wf, CmdFields.rsvZero, CmdFields.opKnown, CmdFields.tAllowed, and_assoc, or_assoc]

theorem instr_wf (i : Instr) : i.wf = true := by
  cases i with
  | nop | shaDigest | hmac | xor => decide
  | otpXor t => cases t <;> decide

/-- R93's table has a row for every valid OP, and the one row that leaves T open is the one where T may be 1. -/
theorem exists_instr_fields_of_wf {f : CmdFields} (h : f.wf = true) : ∃ i : Instr, i.fields = f := by
  obtain ⟨hrsv, hop, ht⟩ := (fields_wf_iff f).1 h
  obtain ⟨op, t, rsv⟩ := f
  simp only [List.mem_cons, List.not_mem_nil, or_false] at hrsv hop ht
  subst hrsv
  obtain rfl | rfl | rfl | rfl | rfl := hop
  case inr.inr.inr.inr => exact ⟨.otpXor t, rfl⟩
  all_goals obtain rfl : t = false := by simpa using ht
  · exact ⟨.nop, rfl⟩
  · exact ⟨.shaDigest, rfl⟩
  · exact ⟨.hmac, rfl⟩
  · exact ⟨.xor, rfl⟩

/-! ## The decoder -/

theorem selectRow_fields (i : Instr) : selectRow i.fields.op i.fields.t = some i := by
  cases i <;> rfl

/-- The row that OP selects has that OP, and the word's T unless T is 1 and the row fixes it at 0. -/
theorem fields_of_selectRow {op : BitVec 8} {t : Bool} {i : Instr} (h : selectRow op t = some i) :
    i.fields = { op := op, t := t && op == 0x04, rsv := 0 } := by
  unfold selectRow at h
  split_ifs at h <;> cases h <;> subst op <;> simp [Instr.fields]

/-- A word decodes to the instruction that has its fields, and to no other. -/
theorem decode_eq_instr_iff {v : Word} {i : Instr} : decode v = .instr i ↔ fieldsOf v = i.fields := by
  constructor
  · intro h
    have hrsv := rsv_of_decode h
    rw [decode, if_neg (not_not.2 hrsv)] at h
    split at h
    case h_1 => cases h
    case h_2 j hrow =>
      split_ifs at h with hstray
      cases h
      have ht : ((fieldsOf v).t && (fieldsOf v).op == 0x04) = (fieldsOf v).t := by
        simpa using hstray
      rw [fields_of_selectRow hrow, ht, ← hrsv]
  · intro h
    obtain ⟨hrsv, -, ht⟩ := (fields_wf_iff i.fields).1 (instr_wf i)
    have hstray : ¬ (i.fields.t = true ∧ i.fields.op ≠ 0x04) :=
      fun ⟨htrue, hop⟩ => ht.elim (Bool.eq_false_iff.1 · htrue) hop
    simp only [decode, h, hrsv, selectRow_fields, hstray, ne_eq, not_true_eq_false, if_false]

/-- The command word of an instruction decodes to that instruction. -/
theorem decode_encode (i : Instr) : decode (encode i) = .instr i :=
  decode_eq_instr_iff.2 (fieldsOf_wordOf i.fields)

/-- Settles O2: a word decodes to an instruction exactly when some instruction has its fields, so exactly when the fields
are valid. -/
theorem wordDecodesExactlyWhenValid : Obligations.WordDecodesExactlyWhenValid := by
  unfold Obligations.WordDecodesExactlyWhenValid
  intro v valid
  have hvalid : (fieldsOf v).wf = true ↔ valid := fields_wf_iff (fieldsOf v)
  refine ⟨fun hv => ?_, fun hv => ?_⟩
  · obtain ⟨i, hi⟩ := exists_instr_fields_of_wf (hvalid.2 hv)
    exact ⟨i, decode_eq_instr_iff.2 hi.symm, by rw [hi, fieldsOf], by rw [hi, fieldsOf]⟩
  · cases hd : decode v with
    | illegal e => exact ⟨e, rfl⟩
    | instr i =>
      have hwf : (fieldsOf v).wf = true := by rw [decode_eq_instr_iff.1 hd]; exact instr_wf i
      exact absurd (hvalid.1 hwf) hv

/-- Settles O1: each of the six words is the command word of its instruction. -/
theorem tableWordsDecodeToTheirCommands : Obligations.TableWordsDecodeToTheirCommands :=
  ⟨decode_encode .nop, decode_encode .shaDigest, decode_encode .hmac, decode_encode .xor,
    decode_encode (.otpXor false), decode_encode (.otpXor true)⟩

end Sys2Proof.Proofs
end

