-- ==== Sys2Proof/Proofs/Schedule.lean ====
section
/-! PROOF. The message schedule word by word: the block's words first, then the recurrence. -/

namespace Sys2Proof.Proofs

open Sys2Proof.Machine Sys2Proof.Laws

/-! ## The first sixteen words -/

theorem blockWords_getD (n : Nat) (b : List Byte) (t : Nat) (ht : t < n) :
    (blockWords n b).getD t 0 = be32 (b.drop (4 * t)) := by
  induction n generalizing b t with
  | zero => exact absurd ht (Nat.not_lt_zero t)
  | succ n ih =>
    cases t with
    | zero => rfl
    | succ t =>
      rw [blockWords, List.getD_cons_succ, ih (b.drop 4) t (Nat.lt_of_succ_lt_succ ht), List.drop_drop,
        Nat.mul_succ, Nat.add_comm]

/-- Extending a schedule keeps the words it has. -/
theorem scheduleExtend_getD_of_lt (n : Nat) (w : List Word) (t : Nat) (ht : t < w.length) :
    (scheduleExtend n w).getD t 0 = w.getD t 0 := by
  induction n generalizing w with
  | zero => rfl
  | succ n ih =>
    rw [scheduleExtend, ih _ (by rw [List.length_append]; omega), List.getD_append _ _ _ _ ht]

/-! ## The recurrence -/

/-- W[t] reads only schedule words before it. -/
theorem scheduleWord_congr {w w' : List Word} {t : Nat} (ht : 0 < t)
    (agree : ∀ i, i < t → w.getD i 0 = w'.getD i 0) : scheduleWord w t = scheduleWord w' t := by
  have back : ∀ k, 0 < k → w.getD (t - k) 0 = w'.getD (t - k) 0 := fun k hk => agree _ (Nat.sub_lt ht hk)
  simp only [scheduleWord, back 2 (by decide), back 7 (by decide), back 15 (by decide), back 16 (by decide)]

/-- Every word that extending adds satisfies the recurrence in the extended schedule: the words it was computed from are
still there. -/
theorem scheduleExtend_getD_of_ge (n : Nat) (w : List Word) (t : Nat) (hw : 0 < w.length) (hge : w.length ≤ t)
    (hlt : t < w.length + n) : (scheduleExtend n w).getD t 0 = scheduleWord (scheduleExtend n w) t := by
  induction n generalizing w with
  | zero => omega
  | succ n ih =>
    have hlen : (w ++ [scheduleWord w w.length]).length = w.length + 1 := by simp
    rcases Nat.eq_or_lt_of_le hge with rfl | hgt
    · have kept : ∀ i, i < w.length → w.getD i 0 = (scheduleExtend (n + 1) w).getD i 0 := fun i hi =>
        (scheduleExtend_getD_of_lt (n + 1) w i hi).symm
      have added : (scheduleExtend (n + 1) w).getD w.length 0 = scheduleWord w w.length := by
        rw [scheduleExtend, scheduleExtend_getD_of_lt n _ _ (by omega), List.getD_append_right _ _ _ _ le_rfl,
          Nat.sub_self, List.getD_cons_zero]
      rw [added, scheduleWord_congr hw kept]
    · exact ih _ (by omega) (by omega) (by omega)

/-! ## The schedule of a block -/

theorem schedule_getD_of_lt (b : List Byte) (t : Nat) (ht : t < 16) :
    (schedule b).getD t 0 = be32 (b.drop (4 * t)) := by
  rw [schedule, scheduleExtend_getD_of_lt _ _ _ (by rwa [blockWords_length]), blockWords_getD 16 b t ht]

theorem schedule_getD_of_ge (b : List Byte) (t : Nat) (hge : 16 ≤ t) (hlt : t < 64) :
    (schedule b).getD t 0 = scheduleWord (schedule b) t := by
  have hlen := blockWords_length 16 b
  exact scheduleExtend_getD_of_ge 48 (blockWords 16 b) t (by omega) (by omega) (by omega)

/-- Settles O32: the words below 16 are the block's, read big-endian; those from 16 on are added by `scheduleExtend`. -/
theorem scheduleFollowsTheRecurrence : Obligations.ScheduleFollowsTheRecurrence := by
  unfold Obligations.ScheduleFollowsTheRecurrence
  intro b _ w
  refine ⟨schedule_length b, fun t ht => ?_, schedule_getD_of_ge b⟩
  have hword : w t = be32 (b.drop (4 * t)) := schedule_getD_of_lt b t ht
  rw [hword, be32_drop_toNat]

end Sys2Proof.Proofs
end

