-- ==== Sys2Proof/Proofs/Rounds.lean ====
section
/-! PROOF. The constants as roots of the primes, and block compression round by round. -/

namespace Sys2Proof.Proofs

open Sys2Proof.Machine

/-! ## The fraction of a root -/

/-- The first 32 bits of the fractional part of the e-th root of `p`: the e-th root of p · 2^(32·e) is that of `p` shifted
left by 32 bits, and the word keeps the low 32 bits of its integer part. -/
def rootFraction (e p : Nat) : Word := BitVec.ofNat 32 (Nat.nthRoot e (p * 2 ^ (32 * e)))

/-- With the integer part `a` of the root before it, the word is the root of `p`, cut off after 32 fractional bits. -/
theorem rootFraction_bounds (e p : Nat) (he : e ≠ 0) :
    ∃ a, (a * 2 ^ 32 + (rootFraction e p).toNat) ^ e ≤ p * 2 ^ (32 * e) ∧
      p * 2 ^ (32 * e) < (a * 2 ^ 32 + (rootFraction e p).toNat + 1) ^ e := by
  refine ⟨Nat.nthRoot e (p * 2 ^ (32 * e)) / 2 ^ 32, ?_⟩
  rw [rootFraction, BitVec.toNat_ofNat, Nat.div_add_mod']
  exact ⟨Nat.pow_nthRoot_le (.inl he), Nat.lt_pow_nthRoot_add_one he _⟩

/-! ## The first 64 primes -/

/-- In the ordered list of the numbers below `n` that satisfy `P`, each stands where its count says. -/
theorem filter_range_getElem?_count (P : Nat → Prop) [DecidablePred P] {n p : Nat} (hp : P p) (hlt : p < n) :
    ((List.range n).filter (P ·))[Nat.count P p]? = some p := by
  induction n with
  | zero => exact absurd hlt (Nat.not_lt_zero p)
  | succ n ih =>
    have hlen : ((List.range n).filter (P ·)).length = Nat.count P n := List.countP_eq_length_filter.symm
    rw [List.range_succ, List.filter_append]
    rcases Nat.lt_succ_iff_lt_or_eq.1 hlt with hlt | rfl
    · rw [List.getElem?_append_left (by rw [hlen]; exact Nat.count_strict_mono hp hlt), ih hlt]
    · rw [List.getElem?_append_right hlen.le, hlen, Nat.sub_self]
      simp [hp]

/-- The primes below 19. -/
def smallPrimes : List Nat := [2, 3, 5, 7, 11, 13, 17]

/-- Trial division by the primes below 19. -/
def trialPrime (n : Nat) : Bool := 2 ≤ n ∧ ∀ q ∈ smallPrimes, q ∣ n → q = n

/-- Trial division decides primality below 19²: a composite number there has a prime factor below 19. -/
theorem prime_iff_trialPrime {n : Nat} (hn : n < 19 ^ 2) : Nat.Prime n ↔ trialPrime n = true := by
  rw [trialPrime, decide_eq_true_iff]
  constructor
  · intro hp
    have small : ∀ q ∈ smallPrimes, Nat.Prime q := by decide
    exact ⟨hp.two_le, fun q hq => (Nat.prime_dvd_prime_iff_eq (small q hq) hp).1⟩
  · rintro ⟨htwo, hdvd⟩
    by_contra hcomp
    have complete : ∀ q < 19, Nat.Prime q → q ∈ smallPrimes := by decide
    have hfac : Nat.minFac n < 19 :=
      lt_of_pow_lt_pow_left' 2 ((Nat.minFac_sq_le_self (by omega) hcomp).trans_lt hn)
    have hprime : Nat.Prime (Nat.minFac n) := Nat.minFac_prime (by omega)
    have hself : Nat.minFac n = n := hdvd _ (complete _ hfac hprime) (Nat.minFac_dvd n)
    exact hcomp (hself ▸ hprime)

/-- The first 64 primes, 2 to 311. -/
def firstPrimes : List Nat := (List.range 312).filter trialPrime

theorem filter_prime_eq_firstPrimes : (List.range 312).filter (Nat.Prime ·) = firstPrimes :=
  List.filter_congr fun n hn => by
    have hlt : n < 19 ^ 2 := (List.mem_range.1 hn).trans (by decide)
    simp only [prime_iff_trialPrime hlt, Bool.decide_eq_true]

theorem count_prime_312 : Nat.count Nat.Prime 312 = 64 := by
  rw [Nat.count, List.countP_eq_length_filter, filter_prime_eq_firstPrimes]
  decide +kernel

/-- A prime with fewer than 64 primes below it is the one that `firstPrimes` has at their number. -/
theorem firstPrimes_getElem?_count {p : Nat} (hp : Nat.Prime p) (hlt : Nat.count Nat.Prime p < 64) :
    firstPrimes[Nat.count Nat.Prime p]? = some p := by
  rw [← filter_prime_eq_firstPrimes]
  exact filter_range_getElem?_count Nat.Prime hp (Nat.lt_of_count_lt_count (by rwa [count_prime_312]))

/-! ## The constants -/

theorem roundConstants_eq_cubeRoots : roundConstants = firstPrimes.map (rootFraction 3) := by decide +kernel

theorem hashWords_initialHash_eq_squareRoots :
    hashWords initialHash = (firstPrimes.take 8).map (rootFraction 2) := by decide +kernel

theorem roundConstant_count_prime {p : Nat} (hp : Nat.Prime p) (hlt : Nat.count Nat.Prime p < 64) :
    roundConstant (Nat.count Nat.Prime p) = rootFraction 3 p := by
  rw [roundConstant, roundConstants_eq_cubeRoots, List.getD_eq_getElem?_getD, List.getElem?_map,
    firstPrimes_getElem?_count hp hlt, Option.map_some, Option.getD_some]

theorem digestWord_initialHash_count_prime {p : Nat} (hp : Nat.Prime p) (i : Fin 8)
    (hi : i.val = Nat.count Nat.Prime p) : digestWord initialHash i = rootFraction 2 p := by
  rw [digestWord, hashWords_initialHash_eq_squareRoots, List.getD_eq_getElem?_getD, List.getElem?_map,
    List.getElem?_take_of_lt i.isLt, hi, firstPrimes_getElem?_count hp (by omega), Option.map_some, Option.getD_some]

/-- Settles O33: each table is the list of the root fractions of the primes in order, and a root fraction has the bounds. -/
theorem constantsAreTheRootsOfThePrimes : Obligations.ConstantsAreTheRootsOfThePrimes := by
  unfold Obligations.ConstantsAreTheRootsOfThePrimes
  rintro p t hp rfl
  refine ⟨fun ht => ?_, fun i hi => ?_⟩
  · rw [roundConstant_count_prime hp ht]
    exact rootFraction_bounds 3 p (by decide)
  · rw [digestWord_initialHash_count_prime hp i hi]
    exact rootFraction_bounds 2 p (by decide)

/-! ## The rounds of a block -/

/-- One round more is run last, on the constant and the schedule word after those before it. -/
theorem roundsFrom_succ (w : List Word) (t n : Nat) (v : Work) :
    roundsFrom w t (n + 1) v = round (roundConstant (t + n)) (w.getD (t + n) 0) (roundsFrom w t n v) := by
  induction n generalizing t v with
  | zero => rfl
  | succ n ih => rw [roundsFrom, ih, roundsFrom, Nat.add_right_comm t 1 n, Nat.add_assoc t n 1]

/-- Settles O34: the working variables before round t are those that `roundsFrom` leaves after t rounds. -/
theorem compressionRunsSixtyFourRounds : Obligations.CompressionRunsSixtyFourRounds := by
  unfold Obligations.CompressionRunsSixtyFourRounds
  intro h b
  refine ⟨fun t => roundsFrom (schedule b) 0 t (workOfHash h), rfl, fun t _ => ?_, rfl⟩
  have hround := roundsFrom_succ (schedule b) 0 t (workOfHash h)
  rwa [Nat.zero_add] at hround

end Sys2Proof.Proofs
end

