-- ==== Sys2Proof/Proofs/Padding.lean ====
section
/-! PROOF. The padding of a stream, its blocks, and the digest block by block. -/

namespace Sys2Proof.Proofs

open Sys2Proof.Machine Sys2Proof.Laws

/-! ## The zero count -/

theorem padZeros_le (len : Nat) : padZeros len ≤ 63 := by
  unfold padZeros; omega

/-- The zero bytes fill up the last block (R172). -/
theorem padZeros_fills (len : Nat) : (len + 1 + padZeros len + 8) % 64 = 0 := by
  unfold padZeros; omega

/-- Two zero counts that fill up the last block differ by a multiple of 64, and `padZeros` is below 64. -/
theorem padZeros_least {len z : Nat} (hz : (len + 1 + z + 8) % 64 = 0) : padZeros len ≤ z := by
  have hfills := padZeros_fills len
  have hle := padZeros_le len
  omega

theorem padZeros_cast (len : Nat) : (padZeros len : Int) = (55 - (len : Int)) % 64 := by
  have hfills := padZeros_fills len
  have hle := padZeros_le len
  omega

/-- When the padding spills, the marker's block is filled up with zero bytes and 56 more open the last block. -/
theorem padZeros_of_spill {len : Nat} (h : 56 ≤ len % 64) : padZeros len = 63 - len % 64 + 56 := by
  unfold padZeros; omega

/-! ## The padded stream -/

/-- Settles O36: `padZeros` is the zero count, and with fewer zero bytes no multiple of 64 is reached. -/
theorem paddingIsTheLeastThatFits : Obligations.PaddingIsTheLeastThatFits := by
  unfold Obligations.PaddingIsTheLeastThatFits
  intro s
  refine ⟨padZeros s.length, ?_, padZeros_fills s.length, fun z' => padZeros_least, pad_length s, fun p hp hle => ?_⟩
  · have hwrap : BitVec.ofNat 64 (8 * s.length % 2 ^ 64) = BitVec.ofNat 64 (8 * s.length) :=
      BitVec.eq_of_toNat_eq (by simp)
    rw [hwrap]
    simp [pad]
  · have hleast : padZeros s.length ≤ p - (s.length + 9) := padZeros_least (by omega)
    rw [pad_length]
    omega

/-- Settles O37, from the lengths of the padded stream. -/
theorem paddingHasTheClosedForms : Obligations.PaddingHasTheClosedForms := by
  unfold Obligations.PaddingHasTheClosedForms
  intro s
  refine ⟨padZeros_cast s.length, padZeros_le s.length, pad_length_eq_blocks s, blockCount_pad s, ?_⟩
  rw [blockCount_pad]
  omega

/-- When the padding spills, the padded stream ends in 56 zero bytes and the length field. -/
theorem pad_of_spill {s : List Byte} (h : 56 ≤ s.length % 64) :
    pad s = (s ++ 0x80 :: List.replicate (63 - s.length % 64) 0) ++
      (List.replicate 56 0 ++ be64 (BitVec.ofNat 64 (8 * s.length))) := by
  rw [pad, padZeros_of_spill h, List.replicate_add]
  simp only [List.append_assoc, List.cons_append]

/-! ## The blocks -/

theorem pad_length_eq_blockCount (s : List Byte) : (pad s).length = 64 * blockCount (pad s) := by
  rw [blockCount_pad, pad_length_eq_blocks]

theorem blockAt_length {m : List Byte} {j : Nat} (h : 64 * (j + 1) ≤ m.length) : (blockAt m j).length = 64 := by
  rw [blockAt, List.length_take, List.length_drop]
  omega

/-- The first blocks, in order, make up the stream's first bytes. -/
theorem flatMap_blockAt_range (m : List Byte) (n : Nat) : (List.range n).flatMap (blockAt m) = m.take (64 * n) := by
  induction n with
  | zero => rfl
  | succ n ih =>
    rw [List.range_succ, List.flatMap_append, ih, List.flatMap_singleton, blockAt, Nat.mul_succ, List.take_add]

/-- A block's worth of bytes after j blocks is block j. -/
theorem blockAt_append (pre b : List Byte) (j : Nat) (hpre : pre.length = 64 * j) (hb : b.length = 64) :
    blockAt (pre ++ b) j = b := by
  rw [blockAt, ← hpre, List.drop_left, ← hb, List.take_length]

/-- After a spill the last block begins where the marker's block ends. -/
theorem blockAt_last_of_spill {s : List Byte} (h : 56 ≤ s.length % 64) :
    blockAt (pad s) (blockCount (pad s) - 1) = List.replicate 56 0 ++ be64 (BitVec.ofNat 64 (8 * s.length)) := by
  rw [blockCount_pad, pad_of_spill h]
  apply blockAt_append
  · simp only [List.length_append, List.length_cons, List.length_replicate]
    omega
  · simp only [List.length_append, List.length_replicate, be64_length]

/-- Settles O38: the padded stream is a whole number of blocks. -/
theorem blocksMakeUpThePaddedStream : Obligations.BlocksMakeUpThePaddedStream := by
  unfold Obligations.BlocksMakeUpThePaddedStream
  intro s
  have hlen := pad_length_eq_blockCount s
  refine ⟨fun j hj => blockAt_length (by omega), ?_, blockAt_last_of_spill⟩
  rw [flatMap_blockAt_range, ← hlen, List.take_length]

/-! ## The digest, block by block -/

/-- The hash state after the first `j` blocks of a stream, from IV (R176). -/
def hashAfter (m : List Byte) (j : Nat) : Hash := (List.range j).foldl (compressBlock m) initialHash

theorem hashAfter_succ (m : List Byte) (j : Nat) :
    hashAfter m (j + 1) = compress (hashAfter m j) (blockAt m j) := by
  rw [hashAfter, List.range_succ, List.foldl_append, List.foldl_cons, List.foldl_nil, compressBlock, hashAfter]

theorem digest_eq_hashAfter (s : List Byte) : digest s = hashAfter (pad s) (blockCount (pad s)) := rfl

/-- Settles O35: `hashAfter` is the sequence of hash states, and its last one is the digest. -/
theorem digestFoldsTheBlocksFromTheInitialHash : Obligations.DigestFoldsTheBlocksFromTheInitialHash := by
  unfold Obligations.DigestFoldsTheBlocksFromTheInitialHash
  intro s
  exact ⟨hashAfter (pad s), rfl, fun j _ => hashAfter_succ (pad s) j, digest_eq_hashAfter s⟩

end Sys2Proof.Proofs
end

