-- ==== Sys2Proof/Proofs/Hmac.lean ====
section
/-! PROOF. key_padding by the length of the key, and the HMAC command within capacity. -/

namespace Sys2Proof.Proofs

open Sys2Proof.Machine Sys2Proof.Safety Sys2Proof.Laws

/-! ## key_padding -/

/-- A key longer than a block enters as its 32-byte serialized digest, so that 32 zero bytes fill the block. -/
theorem keyPad_of_long {k : List Byte} (h : 64 < k.length) :
    keyPad k = ser (digest k) ++ List.replicate 32 0 := by
  rw [keyPad, if_pos h, zeroPad64, ser_length]

theorem keyPad_of_le {k : List Byte} (h : k.length ≤ 64) :
    keyPad k = k ++ List.replicate (64 - k.length) 0 := by
  rw [keyPad, if_neg (Nat.not_lt.2 h), zeroPad64]

/-- A key of exactly one block is neither hashed nor filled up. -/
theorem keyPad_of_block {k : List Byte} (h : k.length = 64) : keyPad k = k := by
  rw [keyPad_of_le h.le, h, Nat.sub_self, List.replicate_zero, List.append_nil]

/-- Settles O40, one lemma per length of the key. -/
theorem keyPaddingHasThreeCases : Obligations.KeyPaddingHasThreeCases := by
  unfold Obligations.KeyPaddingHasThreeCases
  exact fun k => ⟨keyPad_of_long, fun h => keyPad_of_le h.le, keyPad_of_block, keyPad_length k⟩

/-! ## The HMAC command -/

/-- HMAC passes the capacity check and delivers what its controller leaves in H. -/
theorem exec_hmac_of_capacity {s : State} (hn : opN s ≤ s.cfg.bufCap) (hk : opK s ≤ s.cfg.bufCap) :
    exec .hmac s = .next (deliverDigest (runHmac s s.eng) s) := by
  have hfits : ¬ (s.cfg.bufCap < opN s ∨ s.cfg.bufCap < opK s) := by omega
  have harm : exec .hmac s = execHmac s := rfl
  rw [harm, execHmac_eq, if_neg hfits]

/-- A hashing command that completes leaves the OTP sequencer and the key store alone. -/
theorem deliverDigest_otp_frame (e : Engine) (s : State) :
    (deliverDigest e s).otpState = s.otpState ∧ (deliverDigest e s).lock = s.lock ∧
    (deliverDigest e s).ks = s.ks ∧ (deliverDigest e s).ksEnv = s.ksEnv :=
  ⟨rfl, rfl, rfl, rfl⟩

/-- Settles O13: the controller's phases leave the nested hash in H (`runHmac_h`), and `deliverDigest` delivers it. -/
theorem hmacDeliversTheNestedHash : Obligations.HmacDeliversTheNestedHash := by
  unfold Obligations.HmacDeliversTheNestedHash
  intro s hn hk kp d
  have hd : (runHmac s s.eng).h = d := runHmac_h s s.eng
  obtain ⟨hh, hlen, hout, hsame, hframe, hok⟩ := deliverDigest_spec (runHmac s s.eng) s
  rw [hd] at hh hout
  exact ⟨_, exec_hmac_of_capacity hn hk, hok, hframe, hh, hout, hlen, hsame, deliverDigest_otp_frame _ s⟩

end Sys2Proof.Proofs
end

