-- ==== Sys2Proof/Proofs/XorInvolution.lean ====
section
/-! PROOF. The bytewise XOR of R222 undoes itself. -/

namespace Sys2Proof.Proofs

open Sys2Proof.Machine Sys2Proof.Laws

/-- A second XOR with the same string gives back the first string as far as both reach. -/
theorem xorZip_xorZip_getElem (a b : List Byte) (i : Nat) (ha : i < a.length)
    (h : i < (xorZip (xorZip a b) b).length) : (xorZip (xorZip a b) b)[i] = a[i] := by
  rw [xorZip_getElem, xorZip_getElem, BitVec.xor_assoc, BitVec.xor_self, BitVec.xor_zero]

/-- Settles O41, byte by byte; the equal lengths are what keeps all of the first string. -/
theorem xorIsAnInvolution : Obligations.XorIsAnInvolution := by
  unfold Obligations.XorIsAnInvolution
  intro a b hab
  have hlen : (xorZip (xorZip a b) b).length = a.length := by
    rw [xorZip_length, xorZip_length, hab, Nat.min_self, Nat.min_self]
  exact List.ext_getElem hlen fun i h ha => xorZip_xorZip_getElem a b i ha h

end Sys2Proof.Proofs
end

