-- ==== Sys2Proof/Proofs/EncodeDecode.lean ====
section
/-! PROOF. The decoder and the encoder undo each other. -/

namespace Sys2Proof.Proofs

open Sys2Proof.Laws

/-- Settles O3: a word decodes to the instruction that has its fields, and it is the only word with those fields. -/
theorem decodeAndEncodeAgree : Obligations.DecodeAndEncodeAgree := by
  unfold Obligations.DecodeAndEncodeAgree
  intro v i
  constructor
  · intro h
    rw [encode, ← decode_eq_instr_iff.1 h, wordOf_fieldsOf]
  · rintro rfl
    exact decode_encode i

end Sys2Proof.Proofs
end

