-- ==== Sys2Proof/Proofs/Turns.lean ====
section
/-! PROOF. A step as the next turn of the agenda, and the engine's turn as the command in progress. -/

namespace Sys2Proof.Proofs

open Sys2Proof.Machine Sys2Proof.Laws

/-! ## The next turn -/

theorem step_of_agenda_nil {s : State} (h : s.agenda = []) : step s = engineTurn s := by
  simp only [step, h, turn]

theorem step_of_agenda_cons {s : State} {ev : Event} {rest : List Event} (h : s.agenda = ev :: rest) :
    step s = turn ev { s with agenda := rest } := by
  simp only [step, h]

/-- The engine has the turn when it is listed and when none is. -/
theorem step_of_engine_next {s : State} {rest : List Event}
    (h : s.agenda = .engine :: rest ∨ (s.agenda = [] ∧ rest = [])) :
    step s = engineTurn { s with agenda := rest } := by
  obtain h | ⟨h, rfl⟩ := h
  · rw [step_of_agenda_cons h, turn]
  · rw [step_of_agenda_nil h, ← h]

/-! ## The engine's turn -/

theorem engineTurn_of_idle {s : State} (h : s.busy = false) : engineTurn s = .next s := by
  rw [engineTurn, if_neg (Bool.eq_false_iff.1 h)]

theorem engineTurn_of_latched {s : State} {i : Instr} (hb : s.busy = true) (hd : decode (latchedWord s.eng) = .instr i) :
    engineTurn s = exec i s := by
  rw [engineTurn, if_pos hb, hd]

theorem engineTurn_of_inProgress {s : State} {i : Instr} (h : inProgress s = some i) : engineTurn s = exec i s :=
  have ⟨hb, hd⟩ := inProgress_eq_some h
  engineTurn_of_latched hb hd

/-- Settles O4: the engine's turn by whether it is busy, every other turn by the head of the agenda. -/
theorem stepTakesTheNextTurnAndRunsTheLatchedCommand :
    Obligations.StepTakesTheNextTurnAndRunsTheLatchedCommand := by
  unfold Obligations.StepTakesTheNextTurnAndRunsTheLatchedCommand
  intro s rest
  refine ⟨fun h => ?_, fun x h => step_of_agenda_cons h, fun ev h _ => step_of_agenda_cons h⟩
  rw [step_of_engine_next h]
  exact ⟨fun i hb hd => engineTurn_of_latched hb hd, fun hb => engineTurn_of_idle hb⟩

/-- Settles O5: acceptance latches the word, and the engine has the next turn. -/
theorem presentedWordRunsInTheNextStep : Obligations.PresentedWordRunsInTheNextStep := by
  unfold Obligations.PresentedWordRunsInTheNextStep
  intro s nbits w i hd
  have hagenda : (s.withFetchWord nbits w).agenda = .engine :: s.agenda := by
    simp [State.withFetchWord, acceptNext, presentCommand_of_instr hd]
  obtain ⟨hbusy, hlatched⟩ := inProgress_eq_some (inProgress_presentCommand hd s)
  refine ⟨?_, hlatched⟩
  rw [step_of_engine_next (.inl hagenda)]
  exact engineTurn_of_latched hbusy hlatched

end Sys2Proof.Proofs
end

