-- ==== Sys2Proof/Proofs/Invariant.lean ====
section
/-! PROOF. The invariant of the machine: it holds at reset, every turn keeps it, and with it the engine never stops. -/

namespace Sys2Proof.Proofs

open Sys2Proof.Machine Sys2Proof.Safety Sys2Proof.Laws

/-- Settles O57, clause by clause. -/
theorem resetStateMeetsTheInvariant : Obligations.ResetStateMeetsTheInvariant where
  cfg := rfl
  mem := reset_mem_wf
  ram := fun _ hc => absurd hc List.not_mem_nil
  lock := rfl
  outLen := Nat.zero_le _
  busyCommand := nofun
  busyFlags := nofun
  rst := nofun
  ks := by decide
  schedule := List.length_replicate
  paddedKey := List.length_replicate

/-! ## The memory -/

theorem inRam_ramAddr {cap i : Nat} (w : Window) (hcap : cap ≤ 0x10000) (hi : i < cap) :
    inRam cap (ramAddr w i) = true := by
  rw [inRam, windowAt_ramAddr w i (by omega)]
  simpa [ramAddr] using hi

/-- Writing bytes below the capacity of a RAM adds no cell outside the RAMs. -/
theorem inRam_of_mem_memWriteBytes {cap o : Nat} {m : Memory} {w : Window} {bs : List Byte} (hcap : cap ≤ 0x10000)
    (hlen : o + bs.length ≤ cap) (hm : ∀ c ∈ m, inRam cap c.1 = true) :
    ∀ c ∈ memWriteBytes m (ramAddr w o) bs, inRam cap c.1 = true := by
  intro c hc
  obtain ⟨hlo, hhi⟩ | hc := mem_memWriteBytes hc
  · have hbase : ramAddr w o = windowBase w + o := rfl
    have haddr : c.1 = ramAddr w (c.1 - windowBase w) := by rw [ramAddr]; omega
    rw [haddr]
    exact inRam_ramAddr w hcap (by omega)
  · exact hm c hc

theorem inv_ramWrite {s : State} (h : Inv s) {w : Window} {o : Nat} {bs : List Byte}
    (hlen : o + bs.length ≤ s.cfg.bufCap) : Inv (ramWrite w o bs s) :=
  { h with
    mem := memWriteBytes_wf bs _ h.mem
    ram := inRam_of_mem_memWriteBytes (bufCap_le_of_wf h.cfg).2 hlen h.ram }

/-! ## The turns that end idle -/

/-- A completed, rejected or reset command leaves the engine idle, with no more than bytes of OUT written. -/
theorem inv_of_idle {s t : State} (h : Inv s) (hcfg : t.cfg = s.cfg) (hbusy : t.busy = false) (hlock : t.lock = false)
    (hlen : t.outLen.toNat ≤ s.cfg.bufCap) (hks : t.ks.length ≤ s.ks.length)
    (heng : ∃ d d', t.eng = engineIdle d d')
    (hmem : ∃ bs, t.mem = memWriteBytes s.mem (ramAddr .out 0) bs ∧ bs.length ≤ s.cfg.bufCap) : Inv t := by
  obtain ⟨d, d', heng⟩ := heng
  obtain ⟨bs, hmem, hbs⟩ := hmem
  have hout : Inv (ramWrite .out 0 bs s) := inv_ramWrite h (by omega)
  exact
    { cfg := hcfg ▸ h.cfg
      mem := hmem ▸ hout.mem
      ram := by rw [hmem, hcfg]; exact hout.ram
      lock := hlock
      outLen := hcfg ▸ hlen
      busyCommand := fun hb => absurd hb (Bool.eq_false_iff.1 hbusy)
      busyFlags := fun hb => absurd hb (Bool.eq_false_iff.1 hbusy)
      rst := fun _ => hbusy
      ks := by rw [hcfg]; exact hks.trans_lt h.ks
      schedule := by rw [heng, engineIdle_w_length]
      paddedKey := by rw [heng, engineIdle_kp_length] }

theorem inv_completeError {s s' : State} (h : Inv s) (code : ErrCode) (hcfg : s'.cfg = s.cfg) (hmem : s'.mem = s.mem)
    (hks : s'.ks = s.ks) : Inv (completeError code s') :=
  inv_of_idle h hcfg rfl rfl (Nat.zero_le _) (by simp [hks]) ⟨_, _, rfl⟩ ⟨[], hmem, Nat.zero_le _⟩

theorem inv_delivered {s s' : State} (h : Inv s) {bs : List Byte} {len : Word} (hcfg : s'.cfg = s.cfg)
    (hmem : s'.mem = s.mem) (hlock : s'.lock = false) (hks : s'.ks.length ≤ s.ks.length)
    (hbs : bs.length ≤ s.cfg.bufCap) (hlen : len.toNat ≤ s.cfg.bufCap) : Inv (completeOk (deliver bs len s')) :=
  inv_of_idle h hcfg rfl hlock hlen hks ⟨_, _, rfl⟩ ⟨bs, by rw [completeOk_mem, deliver_mem, hmem], hbs⟩

/-- Every command keeps the invariant. -/
theorem exec_keeps_inv {i : Instr} {s t : State} (h : Inv s) (hexec : exec i s = .next t) : Inv t := by
  obtain ⟨hcap, -⟩ := bufCap_le_of_wf h.cfg
  rcases exec_cases i s t hexec with ⟨code, s', -, f, hks, rfl, -⟩ | ⟨-, rfl⟩ | ⟨-, e, rfl⟩ | ⟨-, hn, hk, rfl⟩ |
    ⟨b, s', -, hn, hm, f, hks, -, hlock, rfl⟩
  case inl => exact inv_completeError h code f.cfg f.mem hks
  case inr.inl => exact inv_of_idle h rfl rfl h.lock h.outLen le_rfl ⟨_, _, rfl⟩ ⟨[], rfl, Nat.zero_le _⟩
  case inr.inr.inl =>
    have hser : (ser e.h).length ≤ s.cfg.bufCap := by rw [ser_length]; omega
    have hlen : (32 : Word).toNat ≤ s.cfg.bufCap := show 32 ≤ _ by omega
    exact inv_delivered (s' := { s with eng := e }) h rfl rfl h.lock le_rfl hser hlen
  case inr.inr.inr.inl =>
    exact inv_delivered h rfl rfl h.lock le_rfl (by simpa [hk] using hn) hn
  case inr.inr.inr.inr =>
    have hshrinks : s'.ks.length ≤ s.ks.length := by
      rw [hks]; split <;> simp
    refine inv_delivered h f.cfg f.mem hlock hshrinks ?_ hn
    rw [xorZip_length, msgBytes_length]
    omega

/-! ## Reset and power-on -/

theorem outAtRisk_le_bufCap (s : State) : outAtRisk s ≤ s.cfg.bufCap := by
  unfold outAtRisk
  split <;> omega

theorem freeBytes_length (d n : Nat) : (freeBytes d n).length = n := by simp [freeBytes]

/-- A reset leaves the key store, or an initial part of it (R237, R295). -/
theorem ksAfterReset_eq_take (s : State) : ∃ n, ksAfterReset s = s.ks.take n := by
  unfold ksAfterReset
  split
  · exact ⟨_, rfl⟩
  · exact ⟨s.ks.length, s.ks.take_length.symm⟩

theorem inv_resetBlock {s : State} (h : Inv s) : Inv (resetBlock s) := by
  have hks : (ksAfterReset s).length ≤ s.ks.length := by
    obtain ⟨n, hn⟩ := ksAfterReset_eq_take s
    rw [hn, List.length_take]
    omega
  refine inv_of_idle h rfl rfl rfl (Nat.zero_le _) hks ⟨_, _, rfl⟩ ⟨_, rfl, ?_⟩
  rw [freeBytes_length]
  exact outAtRisk_le_bufCap s

theorem inv_powerOn {s : State} (h : Inv s) : Inv (powerOn s) :=
  { inv_resetBlock h with
    mem := List.Pairwise.nil
    ram := fun _ hc => absurd hc List.not_mem_nil
    rst := nofun
    busyCommand := nofun }

theorem inv_setRst {s : State} (h : Inv s) (level : Bool) : Inv (setRst level s) := by
  cases level with
  | false => exact { h with rst := nofun }
  | true => exact { inv_resetBlock h with rst := fun _ => rfl, busyCommand := nofun }

/-! ## The bus turn -/

/-- Outside reset, a CMD write while idle keeps the invariant: a valid word comes with a latched command. -/
theorem inv_presentCommand {s : State} (h : Inv s) (hrst : s.rst = false) (v : Word) : Inv (presentCommand v s) := by
  cases hd : decode v with
  | instr i =>
    have hcommand := inProgress_presentCommand hd s
    rw [presentCommand_of_instr hd] at hcommand ⊢
    exact
      { h with
        busyCommand := fun _ => by rw [hcommand]; rfl
        busyFlags := fun _ => ⟨rfl, rfl, rfl⟩
        rst := fun hr => absurd (hr : s.rst = true) (Bool.eq_false_iff.1 hrst) }
  | illegal e =>
    rw [presentCommand_of_illegal hd]
    exact inv_completeError h .illegalCmd rfl rfl rfl

theorem lt_bufCap_of_locate_byte {cap a size o : Nat} {w : Window} (h : locate cap a size = some (.byte w o)) :
    o < cap := by
  obtain ⟨r, hr, -⟩ | ⟨w', o', -, -, ⟨ht, -, ho⟩ | ⟨ht, -⟩⟩ := locate_eq_some h
  · cases hr
  · cases ht; exact ho
  · cases ht

theorem le_bufCap_of_locate_word {cap a size o : Nat} {w : Window} (h : locate cap a size = some (.word w o)) :
    o + 4 ≤ cap := by
  obtain ⟨r, hr, -⟩ | ⟨w', o', -, -, ⟨ht, -⟩ | ⟨ht, -, -, ho⟩⟩ := locate_eq_some h
  · cases hr
  · cases ht
  · cases ht; exact ho

/-- A located write keeps the invariant: its bytes lie below the capacity. -/
theorem inv_writeTarget {s : State} (h : Inv s) (hrst : s.rst = false) {a size : Nat} {tgt : Target}
    (hloc : locate s.cfg.bufCap a size = some tgt) (v : Word) : Inv (writeTarget tgt v s) := by
  rcases writeTarget_cases tgt v s with ⟨-, -, hw⟩ | ⟨ml, kl, ov, hw, -⟩ | ⟨w, o, bs, -, hw, -, hbytes⟩
  · exact hw ▸ inv_presentCommand h hrst v
  · exact hw ▸ { h with }
  · rw [hw]
    refine inv_ramWrite h ?_
    obtain ⟨rfl, rfl⟩ | ⟨rfl, rfl⟩ := hbytes
    · exact lt_bufCap_of_locate_byte hloc
    · exact le_bufCap_of_locate_word hloc

theorem inv_busTxn {s : State} (h : Inv s) (hrst : s.rst = false) (x : Txn) : Inv (busTxn x s) := by
  rcases busTxn_cases x s with ⟨d, r, ht⟩ | ⟨tgt, hloc, ⟨-, e, k, d, r, ht⟩ | ⟨-, d, r, ht⟩⟩
  · exact ht ▸ { h with }
  · exact ht ▸ { h with }
  · exact ht ▸ { inv_writeTarget h hrst hloc x.wdata with }

/-! ## Every step -/

theorem inv_agenda {s : State} (h : Inv s) (rest : List Event) : Inv { s with agenda := rest } := { h with }

/-- Settles O58, turn by turn. -/
theorem everyStepKeepsTheInvariant : Obligations.EveryStepKeepsTheInvariant := by
  unfold Obligations.EveryStepKeepsTheInvariant
  intro s t h hstep
  rcases step_cases s t hstep with ⟨s0, hs0, hturn⟩ | ⟨x, rest, -, hrst, rfl⟩ | ⟨l, rest, -, rfl⟩ | ⟨rest, -, rfl⟩ |
    ⟨b, rest, -, -, -, hsize, rfl⟩
  case inl =>
    have h0 : Inv s0 := by
      obtain ⟨-, rfl⟩ | ⟨rest, -, rfl⟩ := hs0
      · exact h
      · exact inv_agenda h rest
    obtain ⟨-, rfl⟩ | ⟨-, i, -, hexec⟩ := hturn
    · exact h0
    · exact exec_keeps_inv h0 hexec
  case inr.inl => exact inv_busTxn (inv_agenda h rest) hrst x
  case inr.inr.inl => exact inv_setRst (inv_agenda h rest) l
  case inr.inr.inr.inl => exact inv_powerOn (inv_agenda h rest)
  case inr.inr.inr.inr => exact { h with ks := hsize }

/-! ## Progress -/

theorem engineTurn_ne_stop {s : State} (h : Inv s) : ∃ t, engineTurn s = .next t := by
  cases hb : s.busy with
  | false => exact ⟨s, engineTurn_of_idle hb⟩
  | true =>
    obtain ⟨i, hi⟩ := Option.isSome_iff_exists.1 (h.busyCommand hb)
    rw [engineTurn_of_inProgress hi]
    exact exec_ne_stop i s

theorem placeKeyFile_of_idle {s : State} {bytes : List Byte} (hb : s.busy = false) (hl : s.lock = false)
    (hsize : bytes.length < 2 ^ s.cfg.ksWidth) : placeKeyFile bytes s = .next { s with ks := bytes } := by
  simp [placeKeyFile, hb, hl, keyFileOk, hsize]

/-- Settles O59: of the turns, the bus's and the key file's alone can stop, and the premises rule that out. -/
theorem soundStatesStopOnlyOutsideTheSpec : Obligations.SoundStatesStopOnlyOutsideTheSpec := by
  unfold Obligations.SoundStatesStopOnlyOutsideTheSpec
  intro s h hbus hkey
  cases hagenda : s.agenda with
  | nil => rw [step_of_agenda_nil hagenda]; exact engineTurn_ne_stop h
  | cons ev rest =>
    rw [step_of_agenda_cons hagenda]
    cases ev with
    | bus x => exact ⟨_, busTurn_of_running (s := { s with agenda := rest }) (hbus x rest hagenda) x⟩
    | engine => exact engineTurn_ne_stop (inv_agenda h rest)
    | rst level => exact ⟨_, rfl⟩
    | powerOn => exact ⟨_, rfl⟩
    | keyFile bytes =>
      obtain ⟨hb, hsize⟩ := hkey bytes rest hagenda
      exact ⟨_, placeKeyFile_of_idle hb h.lock hsize⟩

end Sys2Proof.Proofs
end

