-- ==== Sys2Proof/Proofs/Completions.lean ====
section
/-! PROOF. How each command ends, what it delivers, and what every ending leaves as it was. -/

namespace Sys2Proof.Proofs

open Sys2Proof.Machine Sys2Proof.Safety Sys2Proof.Laws

/-! ## The dispatch -/

theorem exec_shaDigest (s : State) : exec .shaDigest s = execShaDigest s := rfl

theorem exec_hmac (s : State) : exec .hmac s = execHmac s := rfl

theorem exec_xor (s : State) : exec .xor s = execXor s := rfl

theorem exec_otpXor (truncate : Bool) (s : State) : exec (.otpXor truncate) s = execOtpXor truncate s :=
  rfl

/-! ## Every command -/

/-- Settles O17: a command answers a next state, and every next state it answers is a completion. -/
theorem everyCommandReachesACompletionEvent : Obligations.EveryCommandReachesACompletionEvent := by
  unfold Obligations.EveryCommandReachesACompletionEvent
  intro i s
  obtain ⟨t, h⟩ := exec_ne_stop i s
  exact ⟨t, h, exec_ended i s t h⟩

/-- Settles O11: NOP is the completion event and nothing before it. -/
theorem nopCompletesWithoutResults : Obligations.NopCompletesWithoutResults := by
  unfold Obligations.NopCompletesWithoutResults
  intro s
  exact ⟨completeOk s, rfl, endedOk_completeOk s, commandFrame_completeOk s, rfl, rfl, rfl, rfl, rfl, rfl, fun _ => rfl⟩

/-! ## The hashing commands -/

theorem exec_shaDigest_of_capacity {s : State} (hn : opN s ≤ s.cfg.bufCap) :
    exec .shaDigest s = .next (deliverDigest (runPhase .plain s s.eng) s) := by
  rw [exec_shaDigest, execShaDigest_eq, if_neg (Nat.not_lt.2 hn)]

/-- Settles O12: phase PLAIN leaves the digest in H (`runPhase_plain_h`), and `deliverDigest` delivers it. -/
theorem shaDigestDeliversTheDigest : Obligations.ShaDigestDeliversTheDigest := by
  unfold Obligations.ShaDigestDeliversTheDigest
  intro s hn
  have hd : (runPhase .plain s s.eng).h = digest (ramBytes s .msg (opN s)) := runPhase_plain_h s s.eng
  obtain ⟨hh, hlen, hout, hsame, hframe, hok⟩ := deliverDigest_spec (runPhase .plain s s.eng) s
  rw [hd] at hh hout
  exact ⟨_, exec_shaDigest_of_capacity hn, hok, hframe, hh, hout, hlen, hsame, deliverDigest_otp_frame _ s⟩

/-- Two hashing commands that leave the same words in H deliver the same digest and the same output. -/
theorem deliverDigest_congr {e e' : Engine} (s s' : State) (h : e'.h = e.h) :
    (deliverDigest e' s').eng.h = (deliverDigest e s).eng.h ∧
    readBytes (deliverDigest e' s') (ramAddr .out 0) 32 = readBytes (deliverDigest e s) (ramAddr .out 0) 32 := by
  obtain ⟨hh, -, hout, -⟩ := deliverDigest_spec e s
  obtain ⟨hh', -, hout', -⟩ := deliverDigest_spec e' s'
  rw [hh, hout, hh', hout', h]
  exact ⟨rfl, rfl⟩

/-- Settles O26: what each hashing command leaves in H is a function of the declared operands (`runPhase_plain_h`,
`runHmac_h`). -/
theorem hashingReadsOnlyTheDeclaredOperands : Obligations.HashingReadsOnlyTheDeclaredOperands := by
  unfold Obligations.HashingReadsOnlyTheDeclaredOperands
  intro s s' hn hn' hopN hmsgRam
  have hmsg : msgBytes s' = msgBytes s := by rw [msgBytes, hopN, hmsgRam, msgBytes]
  refine ⟨⟨_, _, exec_shaDigest_of_capacity hn, exec_shaDigest_of_capacity (hopN ▸ hn'), deliverDigest_congr s s' ?_⟩,
    fun hk hk' hopK hkeyRam => ⟨_, _, exec_hmac_of_capacity hn hk,
      exec_hmac_of_capacity (hopN ▸ hn') (hopK ▸ hk'), deliverDigest_congr s s' ?_⟩⟩
  · rw [runPhase_plain_h, runPhase_plain_h, hmsg]
  · have hkey : keyBytes s' = keyBytes s := by rw [keyBytes, hopK, hkeyRam, keyBytes]
    rw [runHmac_h, runHmac_h, hmsg, hkey]

/-! ## XOR -/

/-- OUT after an exclusive-or of a key with the message is delivered, on the state `s'` that the command has reached. -/
theorem readByte_xorDelivered {s s' : State} {key : List Byte} (len : Word) (hkey : key.length = opN s) {i : Nat}
    (hi : i < opN s) : readByte (completeOk (deliver (xorZip key (msgBytes s)) len s')) (ramAddr .out i) =
      key.getD i 0 ^^^ readByte s (ramAddr .msg i) := by
  have hlen : i < (xorZip key (msgBytes s)).length := by simp; omega
  rw [readByte_delivered_inside _ _ _ _ hlen, xorZip_getElem, msgBytes_getElem, List.getD_eq_getElem]

theorem sameOutside_xorDelivered {s : State} {key : List Byte} (len : Word) (hkey : key.length = opN s) :
    SameOutside s (completeOk (deliver (xorZip key (msgBytes s)) len s)) (ramAddr .out 0) (opN s) := by
  intro a ha
  exact readByte_delivered_outside _ _ _ _ (by simpa [hkey] using ha)

theorem exec_xor_of_capacity {s : State} (hn : opN s ≤ s.cfg.bufCap) (hk : opK s ≤ s.cfg.bufCap) :
    exec .xor s = .next (if opK s ≠ opN s then completeError .lengthMismatch s
      else completeOk (deliver (xorZip (keyBytes s) (msgBytes s)) s.eng.nLat s)) := by
  have hfits : ¬ (s.cfg.bufCap < opN s ∨ s.cfg.bufCap < opK s) := by omega
  rw [exec_xor, execXor_eq, if_neg hfits]

/-- Settles O14: with equal lengths XOR delivers the exclusive-or of the operands. -/
theorem xorDeliversTheBytewiseXor : Obligations.XorDeliversTheBytewiseXor := by
  unfold Obligations.XorDeliversTheBytewiseXor
  intro s hn hkn
  have hkey : (keyBytes s).length = opN s := by rw [keyBytes_length, hkn]
  have hexec := exec_xor_of_capacity hn (hkn ▸ hn)
  rw [if_neg (not_not.2 hkn)] at hexec
  refine ⟨_, hexec, endedOk_completeOk _, commandFrame_delivered _ _ s, fun i hi => ?_, rfl,
    sameOutside_xorDelivered _ hkey, rfl, rfl, rfl, rfl, rfl⟩
  rw [readByte_xorDelivered _ hkey hi, List.getD_eq_getElem _ _ (by omega), keyBytes_getElem]

/-- Settles O19, by whether the lengths differ. -/
theorem xorReportsLengthMismatch : Obligations.XorReportsLengthMismatch := by
  unfold Obligations.XorReportsLengthMismatch
  intro s hn hk
  refine ⟨_, exec_xor_of_capacity hn hk, ?_⟩
  split
  case isTrue hne => exact ⟨iff_of_true rfl hne, fun _ => ⟨endedError_completeError _ s, rfl⟩⟩
  case isFalse heq => exact ⟨iff_of_false nofun heq, fun hne => absurd hne heq⟩

/-! ## Errors -/

/-- A message above the capacity ends every command that reads one (R112). -/
theorem exec_of_long {i : Instr} {s : State} (hlong : s.cfg.bufCap < opN s) (hi : i ≠ .nop) :
    exec i s = .next (completeError .capacity s) := by
  cases i with
  | nop => exact absurd rfl hi
  | shaDigest => rw [exec_shaDigest, execShaDigest_eq, if_pos hlong]
  | hmac => rw [exec_hmac, execHmac_eq, if_pos (.inl hlong)]
  | xor => rw [exec_xor, execXor_eq, if_pos (.inl hlong)]
  | otpXor truncate =>
    have hchecked : msgTooLong s = true := decide_eq_true hlong
    rw [exec_otpXor, execOtpXor, if_pos hchecked]

/-- A key above the capacity ends the two commands that read one from KEY (R112). -/
theorem exec_of_longKey {i : Instr} {s : State} (hlong : s.cfg.bufCap < opK s) (hi : i = .hmac ∨ i = .xor) :
    exec i s = .next (completeError .capacity s) := by
  obtain rfl | rfl := hi
  · rw [exec_hmac, execHmac_eq, if_pos (.inr hlong)]
  · rw [exec_xor, execXor_eq, if_pos (.inr hlong)]

/-- Settles O18: each of the four commands begins with the check of the lengths it has. -/
theorem capacityIsCheckedFirst : Obligations.CapacityIsCheckedFirst := by
  unfold Obligations.CapacityIsCheckedFirst
  rintro s i (⟨hlong, hi⟩ | ⟨hlong, hi⟩)
  · exact ⟨_, exec_of_long hlong hi, endedError_completeError _ s, rfl, rfl⟩
  · exact ⟨_, exec_of_longKey hlong hi, endedError_completeError _ s, rfl, rfl⟩

/-- An error raised in the sequencer is precise for the state the command started from. -/
theorem endedError_of_sequencerFrame {s s' : State} (f : SequencerFrame s s') (hks : s'.ks = s.ks) (code : ErrCode) :
    EndedError code s (completeError code s') :=
  { endedError_completeError code s' with
    h := show s'.eng.h = s.eng.h by rw [f.eng]
    ks := hks
    ram := f.readByte
    frame := f.commandFrame (endedError_completeError code s').frame }

/-- Settles O23: of the endings of a command, only its errors have a code other than NONE. -/
theorem everyErrorIsPrecise : Obligations.EveryErrorIsPrecise := by
  unfold Obligations.EveryErrorIsPrecise
  intro i s t hexec herr
  rcases exec_cases i s t hexec with ⟨code, s', -, f, hks, rfl, -⟩ | ⟨-, rfl⟩ | ⟨-, e, rfl⟩ | ⟨-, -, -, rfl⟩ |
    ⟨b, s', -, -, -, -, -, -, -, rfl⟩
  case inl => exact endedError_of_sequencerFrame f hks code
  all_goals exact absurd rfl herr

/-- Settles O24: the sequencer alone moves OTP_STATE, and each of its errors is raised in a known state. -/
theorem otpStateShowsHowFarTheSequencerGot : Obligations.OtpStateShowsHowFarTheSequencerGot := by
  unfold Obligations.OtpStateShowsHowFarTheSequencerGot
  intro i s t hexec hidle hlock
  rcases exec_cases i s t hexec with ⟨code, s', hcode, -, -, rfl, hstate⟩ | ⟨rfl, rfl⟩ | ⟨hi, e, rfl⟩ | ⟨rfl, -, -, rfl⟩ |
    ⟨b, s', rfl, -, -, -, -, hconsumed, hunlocked, rfl⟩
  case inl =>
    simp only [completeError_otpState, completeError_err, completeError_lock, true_and]
    obtain ⟨hkept, hmem⟩ | ⟨b, rfl, hmem, hreached⟩ := hstate
    · have hstill := hkept.trans hidle
      refine ⟨fun _ => hstill, fun b _ => ⟨fun _ => hstill, ?_, ?_, fun hnone => absurd hnone hcode⟩⟩ <;>
        (rintro rfl; simp at hmem)
    · refine ⟨fun hne => absurd rfl (hne b), fun b' hb' => ?_⟩
      cases hb'
      refine ⟨?_, ?_, fun _ => hreached.imp id fun ⟨hb, _, hval⟩ => ⟨hb, hval⟩, fun hnone => absurd hnone hcode⟩
      · rintro rfl; simp at hmem
      · rintro rfl; simpa using hreached
  case inr.inl => exact ⟨hlock, fun _ => hidle, fun _ h => nomatch h⟩
  case inr.inr.inl =>
    refine ⟨hlock, fun _ => hidle, fun b hb => ?_⟩
    subst hb
    simp at hi
  case inr.inr.inr.inl => exact ⟨hlock, fun _ => hidle, fun _ h => nomatch h⟩
  case inr.inr.inr.inr =>
    exact ⟨hunlocked, fun hne => absurd rfl (hne b), fun _ _ => ⟨nofun, nofun, nofun, fun _ => hconsumed⟩⟩

/-! ## What a completed command has changed -/

/-- A result delivered by the sequencer: no byte outside it changes. -/
theorem sameOutside_otpDelivered {s s' : State} (f : SequencerFrame s s') (len : Word) (hnm : opN s ≤ s.ks.length) :
    SameOutside s (completeOk (deliver (xorZip (tailBytes (opN s) s.ks) (msgBytes s)) len s')) (ramAddr .out 0) (opN s) := by
  have hkey : (tailBytes (opN s) s.ks).length = opN s' := by rw [tailBytes_length, f.opN]; omega
  have hsame := sameOutside_xorDelivered len hkey
  rw [f.msgBytes, f.opN] at hsame
  exact fun a ha => (hsame a ha).trans (f.readByte a)

/-- Settles O25: NOP writes nothing, and every other command delivers as many bytes as OUT_LEN says. -/
theorem commandsWriteOnlyTheDeclaredResult : Obligations.CommandsWriteOnlyTheDeclaredResult := by
  unfold Obligations.CommandsWriteOnlyTheDeclaredResult
  intro i s t hexec herr
  rcases exec_cases i s t hexec with ⟨code, s', hcode, -, -, rfl, -⟩ | ⟨-, rfl⟩ | ⟨-, e, rfl⟩ | ⟨-, -, hkn, rfl⟩ |
    ⟨b, s', -, -, hnm, f, -, -, -, rfl⟩
  case inl => exact absurd herr hcode
  case inr.inl => exact fun _ _ => rfl
  case inr.inr.inl =>
    obtain ⟨-, -, -, hsame, -⟩ := deliverDigest_spec e s
    exact hsame
  case inr.inr.inr.inl => exact sameOutside_xorDelivered s.eng.nLat (by rw [keyBytes_length, hkn])
  case inr.inr.inr.inr => exact sameOutside_otpDelivered f _ hnm

/-- Settles O28: only the ending of a truncating OTP_XOR has another key store than the command's beginning. -/
theorem onlyATruncatingOtpXorChangesTheKeyStore : Obligations.OnlyATruncatingOtpXorChangesTheKeyStore := by
  unfold Obligations.OnlyATruncatingOtpXorChangesTheKeyStore
  intro i s t hexec
  rcases exec_cases i s t hexec with ⟨code, s', hcode, -, hks, rfl, -⟩ | ⟨rfl, rfl⟩ | ⟨hi, e, rfl⟩ | ⟨rfl, -, -, rfl⟩ |
    ⟨b, s', rfl, -, hnm, -, hks, -, -, rfl⟩
  case inl => exact ⟨.inl hks, fun _ hnone => absurd hnone hcode⟩
  case inr.inl => exact ⟨.inl rfl, nofun⟩
  case inr.inr.inl => exact ⟨.inl rfl, fun h => by subst h; simp at hi⟩
  case inr.inr.inr.inl => exact ⟨.inl rfl, nofun⟩
  case inr.inr.inr.inr =>
    cases b with
    | false => exact ⟨.inl hks, nofun⟩
    | true => exact ⟨.inr ⟨rfl, rfl⟩, fun _ _ => ⟨hnm, hks⟩⟩

end Sys2Proof.Proofs
end

