-- ==== Sys2Proof/Proofs/Sequencer.lean ====
section
/-! PROOF. The key-consumption sequencer by the requests it makes: each outcome of OTP_XOR, and no key position used
twice. -/

namespace Sys2Proof.Proofs

open Sys2Proof.Machine Sys2Proof.Safety Sys2Proof.Laws

/-! ## The sequencer between its requests -/

theorem takeAnswer_ksEnv (s : State) : (takeAnswer s).ksEnv = s.ksEnv.drop 1 := by
  cases h : s.ksEnv <;> simp [takeAnswer, h]

/-- Taking answers changes the answers to come and nothing else. -/
theorem takeAnswer_iterate_eq (k : Nat) (s : State) :
    takeAnswer^[k] s = { s with ksEnv := s.ksEnv.drop k, ksAsked := (takeAnswer^[k] s).ksAsked } := by
  induction k with
  | zero => rfl
  | succ k ih =>
    rw [Function.iterate_succ_apply', takeAnswer_eq, takeAnswer_ksEnv, ih, List.drop_drop]

/-- The state of the sequencer when it has made `k` requests and reached `st`, with LOCK held (R231, R232). -/
def sequencing (k : Nat) (st : OtpState) (s : State) : State := { takeAnswer^[k] s with otpState := st, lock := true }

theorem takeAnswer_otp_fields (st : OtpState) (l : Bool) (s : State) :
    takeAnswer { s with otpState := st, lock := l } = { takeAnswer s with otpState := st, lock := l } := by
  cases h : s.ksEnv <;> simp [takeAnswer, h]

theorem takeAnswer_sequencing (k : Nat) (st : OtpState) (s : State) :
    takeAnswer (sequencing k st s) = sequencing (k + 1) st s := by
  rw [sequencing, takeAnswer_otp_fields, ← Function.iterate_succ_apply' takeAnswer, sequencing]

theorem nextIoFail_sequencing (k : Nat) (st : OtpState) (s : State) :
    nextIoFail (sequencing k st s) = requestFails k s := rfl

theorem sequencing_frame (k : Nat) (st : OtpState) (s : State) : SequencerFrame s (sequencing k st s) := by
  rw [sequencing, takeAnswer_iterate_eq]
  constructor <;> rfl

@[simp] theorem sequencing_ks (k : Nat) (st : OtpState) (s : State) : (sequencing k st s).ks = s.ks := by
  rw [sequencing, takeAnswer_iterate_eq]

@[simp] theorem sequencing_ksEnv (k : Nat) (st : OtpState) (s : State) :
    (sequencing k st s).ksEnv = s.ksEnv.drop k := by
  rw [sequencing, takeAnswer_iterate_eq]

/-- READING → VALIDATED, by the answers to the size request and the read (R231). -/
theorem otpValidate_sequencing (s : State) : otpValidate (sequencing 0 .reading s) =
    if requestFails 0 s then .raised .ioFailure (sequencing 1 .reading s)
    else if s.ks.length < opN s then .raised .keyTooShort (sequencing 1 .reading s)
    else if requestFails 1 s then .raised .ioFailure (sequencing 2 .reading s)
    else .done (tailBytes (opN s) s.ks, s.ks.length) (sequencing 2 .validated s) := by
  have hvalidated : ({ sequencing 2 .reading s with otpState := .validated } : State) = sequencing 2 .validated s := rfl
  rw [otpValidate_eq, takeAnswer_sequencing, takeAnswer_sequencing, hvalidated, (sequencing_frame 0 .reading s).opN,
    sequencing_ks, nextIoFail_sequencing, nextIoFail_sequencing]

/-- The sequencer past its last request, with the key store truncated or not and LOCK released (R232). -/
def consumed (truncate : Bool) (s : State) : State :=
  { sequencing (if truncate then 3 else 2) .consumed s with
    ks := if truncate then s.ks.take (s.ks.length - opN s) else s.ks
    lock := false }

theorem consumed_frame (truncate : Bool) (s : State) : SequencerFrame s (consumed truncate s) :=
  { sequencing_frame (if truncate then 3 else 2) .consumed s with }

theorem consumed_ksEnv (truncate : Bool) (s : State) :
    (consumed truncate s).ksEnv = s.ksEnv.drop (if truncate then 3 else 2) :=
  sequencing_ksEnv _ .consumed s

/-- VALIDATED → CONSUMED, by the answer to the truncation if one is requested (R232). -/
theorem otpConsume_sequencing (truncate : Bool) (key : List Byte) (s : State) :
    otpConsume truncate key s.ks.length (sequencing 2 .validated s) =
      if truncate && requestFails 2 s then .raised .ioFailure (sequencing 3 .validated s)
      else .done (xorZip key (msgBytes s)) (consumed truncate s) := by
  have f := sequencing_frame 2 .validated s
  rw [otpConsume_eq, takeAnswer_sequencing, f.msgBytes, f.opN, sequencing_ks, nextIoFail_sequencing]
  cases truncate with
  | true => rfl
  | false =>
    have hkept : (sequencing 2 .consumed s).ks = s.ks := sequencing_ks ..
    rw [consumed, ← hkept]
    rfl

/-- OTP_XOR within capacity, from the first request that goes wrong to the delivered result (R231, R232, R236). -/
theorem exec_otpXor_of_capacity {s : State} (truncate : Bool) (hn : opN s ≤ s.cfg.bufCap) :
    exec (.otpXor truncate) s = .next (
      if requestFails 0 s then completeError .ioFailure (sequencing 1 .reading s)
      else if s.ks.length < opN s then completeError .keyTooShort (sequencing 1 .reading s)
      else if requestFails 1 s then completeError .ioFailure (sequencing 2 .reading s)
      else if truncate && requestFails 2 s then completeError .ioFailure (sequencing 3 .validated s)
      else completeOk (deliver (xorZip (tailBytes (opN s) s.ks) (msgBytes s)) s.eng.nLat (consumed truncate s))) := by
  have hfits : ¬ (msgTooLong s = true) := by simpa [msgTooLong] using hn
  have hstart : ({ s with otpState := .reading, lock := true } : State) = sequencing 0 .reading s := rfl
  rw [exec_otpXor, execOtpXor, if_neg hfits, hstart, otpRun, otpValidate_sequencing]
  by_cases h0 : requestFails 0 s = true
  · simp only [if_pos h0]
  by_cases hshort : s.ks.length < opN s
  · simp only [if_neg h0, if_pos hshort]
  by_cases h1 : requestFails 1 s = true
  · simp only [if_neg h0, if_neg hshort, if_pos h1]
  simp only [if_neg h0, if_neg hshort, if_neg h1, otpConsume_sequencing]
  by_cases h2 : (truncate && requestFails 2 s) = true
  · simp only [if_pos h2]
  · simp only [if_neg h2, (consumed_frame truncate s).eng]

/-! ## Each outcome -/

/-- Settles O20: the size check comes before the read and the truncation. -/
theorem otpXorReportsKeyTooShort : Obligations.OtpXorReportsKeyTooShort := by
  unfold Obligations.OtpXorReportsKeyTooShort
  intro s truncate hn hshort h0
  have hexec := exec_otpXor_of_capacity truncate hn
  rw [h0, if_neg Bool.false_ne_true, if_pos hshort] at hexec
  exact ⟨_, hexec, endedError_of_sequencerFrame (sequencing_frame 1 .reading s) (sequencing_ks ..) _, rfl,
    sequencing_ksEnv 1 .reading s⟩

/-- Settles O21: the size request is made first and the read second. -/
theorem otpXorReportsFailureBeforeTheKeyIsRead : Obligations.OtpXorReportsFailureBeforeTheKeyIsRead := by
  unfold Obligations.OtpXorReportsFailureBeforeTheKeyIsRead
  intro s truncate hn
  have hexec := exec_otpXor_of_capacity truncate hn
  refine ⟨fun h0 => ?_, fun hnm h0 h1 => ?_⟩
  · rw [if_pos h0] at hexec
    exact ⟨_, hexec, endedError_of_sequencerFrame (sequencing_frame 1 .reading s) (sequencing_ks ..) _, rfl,
      sequencing_ksEnv 1 .reading s⟩
  · rw [h0, if_neg Bool.false_ne_true, if_neg (Nat.not_lt.2 hnm), if_pos h1] at hexec
    exact ⟨_, hexec, endedError_of_sequencerFrame (sequencing_frame 2 .reading s) (sequencing_ks ..) _, rfl,
      sequencing_ksEnv 2 .reading s⟩

/-- OTP_XOR with the size and the read answered, and enough key. -/
theorem exec_otpXor_of_key {s : State} (truncate : Bool) (hn : opN s ≤ s.cfg.bufCap) (hnm : opN s ≤ s.ks.length)
    (h0 : requestFails 0 s = false) (h1 : requestFails 1 s = false) :
    exec (.otpXor truncate) s = .next (
      if truncate && requestFails 2 s then completeError .ioFailure (sequencing 3 .validated s)
      else completeOk (deliver (xorZip (tailBytes (opN s) s.ks) (msgBytes s)) s.eng.nLat (consumed truncate s))) := by
  rw [exec_otpXor_of_capacity truncate hn, h0, if_neg Bool.false_ne_true, if_neg (Nat.not_lt.2 hnm), h1,
    if_neg Bool.false_ne_true]

/-- Settles O22: the truncation is the third request, made once the key is read. -/
theorem otpXorReportsFailedTruncation : Obligations.OtpXorReportsFailedTruncation := by
  unfold Obligations.OtpXorReportsFailedTruncation
  intro s hn hnm h0 h1 h2
  have hexec := exec_otpXor_of_key true hn hnm h0 h1
  rw [h2, Bool.and_true, if_pos rfl] at hexec
  exact ⟨_, hexec, endedError_of_sequencerFrame (sequencing_frame 3 .validated s) (sequencing_ks ..) _, rfl,
    sequencing_ksEnv 3 .validated s⟩

/-! ## The result -/

theorem tailBytes_getD {n : Nat} {ks : List Byte} (i : Nat) :
    (tailBytes n ks).getD i 0 = ks.getD (ks.length - n + i) 0 := by
  rw [tailBytes, List.getD_eq_getElem?_getD, List.getElem?_drop, List.getD_eq_getElem?_getD]

/-- OUT after the sequencer has delivered: the message under the key store's tail. -/
theorem readByte_otpDelivered {s : State} (s' : State) (len : Word) (hnm : opN s ≤ s.ks.length) {i : Nat}
    (hi : i < opN s) :
    readByte (completeOk (deliver (xorZip (tailBytes (opN s) s.ks) (msgBytes s)) len s')) (ramAddr .out i) =
      s.ks.getD (s.ks.length - opN s + i) 0 ^^^ readByte s (ramAddr .msg i) := by
  have hkey : (tailBytes (opN s) s.ks).length = opN s := by rw [tailBytes_length]; omega
  rw [readByte_xorDelivered len hkey hi, tailBytes_getD]

/-- What an OTP_XOR that runs to CONSUMED leaves, with and without the truncation. -/
theorem otpXor_consumed_spec (truncate : Bool) {s : State} (hnm : opN s ≤ s.ks.length) :
    let t := completeOk (deliver (xorZip (tailBytes (opN s) s.ks) (msgBytes s)) s.eng.nLat (consumed truncate s))
    EndedOk t ∧ CommandFrame s t ∧
    (∀ i, i < opN s → readByte t (ramAddr .out i) =
      s.ks.getD (s.ks.length - opN s + i) 0 ^^^ readByte s (ramAddr .msg i)) ∧
    t.outLen = s.eng.nLat ∧ SameOutside s t (ramAddr .out 0) (opN s) ∧ t.otpState = .consumed ∧ t.lock = false ∧
    t.ks = (if truncate then s.ks.take (s.ks.length - opN s) else s.ks) ∧
    t.ksEnv = s.ksEnv.drop (if truncate then 3 else 2) ∧ t.eng.h = s.eng.h := by
  intro t
  have f := consumed_frame truncate s
  have hh : t.eng.h = s.eng.h := show (consumed truncate s).eng.h = s.eng.h by rw [f.eng]
  exact ⟨endedOk_completeOk _, f.commandFrame (commandFrame_delivered ..), fun i hi => readByte_otpDelivered _ _ hnm hi,
    rfl, sameOutside_otpDelivered f _ hnm, rfl, rfl, rfl, consumed_ksEnv truncate s, hh⟩

/-- Settles O15: without a truncation the two answered requests are all the sequencer needs. -/
theorem otpXorUsesTheKeyTail : Obligations.OtpXorUsesTheKeyTail := by
  unfold Obligations.OtpXorUsesTheKeyTail
  intro s hn hnm h0 h1
  exact ⟨_, exec_otpXor_of_key false hn hnm h0 h1, otpXor_consumed_spec false hnm⟩

/-- Settles O16: the third answer lets the truncation through. -/
theorem otpXorTruncatingConsumesTheKeyTail : Obligations.OtpXorTruncatingConsumesTheKeyTail := by
  unfold Obligations.OtpXorTruncatingConsumesTheKeyTail
  intro s hn hnm h0 h1 h2
  have hexec := exec_otpXor_of_key true hn hnm h0 h1
  rw [h2, Bool.and_false, if_neg Bool.false_ne_true] at hexec
  exact ⟨_, hexec, otpXor_consumed_spec true hnm⟩

/-! ## No key position is used twice -/

/-- An OTP_XOR that completes without error had enough key and has delivered the message under the tail of it. -/
theorem otpXor_completed {s t : State} {b : Bool} (hexec : exec (.otpXor b) s = .next t) (herr : t.err = .none) :
    opN s ≤ s.ks.length ∧ ∀ i, i < opN s → readByte t (ramAddr .out i) =
      s.ks.getD (s.ks.length - opN s + i) 0 ^^^ readByte s (ramAddr .msg i) := by
  rcases exec_cases (.otpXor b) s t hexec with ⟨code, s', hcode, -, -, rfl, -⟩ | ⟨hi, -⟩ | ⟨hi, -⟩ | ⟨hi, -⟩ |
    ⟨_, s', -, -, hnm, -, -, -, -, rfl⟩
  case inl => exact absurd herr hcode
  case inr.inl => cases hi
  case inr.inr.inl => simp at hi
  case inr.inr.inr.inl => cases hi
  case inr.inr.inr.inr => exact ⟨hnm, fun i hi => readByte_otpDelivered s' _ hnm hi⟩

/-- Settles O30: the truncation leaves the key before the tail that was used, and the next command's key is the tail of
what is left. -/
theorem noKeyPositionIsUsedTwice : Obligations.NoKeyPositionIsUsedTwice := by
  unfold Obligations.NoKeyPositionIsUsedTwice
  intro s t u r b hs herr hks hu herr'
  obtain ⟨hnm, hout⟩ := otpXor_completed hs herr
  obtain ⟨hnm', hout'⟩ := otpXor_completed hu herr'
  obtain ⟨-, htruncated⟩ := onlyATruncatingOtpXorChangesTheKeyStore _ s t hs
  obtain ⟨-, hleft⟩ := htruncated rfl herr
  rw [hleft] at hks
  have hlen : u.ks.length = s.ks.length - opN s := by rw [hks, List.length_take]; omega
  refine ⟨by omega, hout, fun i hi => ?_⟩
  have hkept : u.ks.getD (s.ks.length - opN s - opN u + i) 0 = s.ks.getD (s.ks.length - opN s - opN u + i) 0 := by
    rw [hks, List.getD_eq_getElem?_getD, List.getElem?_take_of_lt (by omega), List.getD_eq_getElem?_getD]
  rw [hout' i hi, hlen, hkept]

end Sys2Proof.Proofs
end

