-- ==== Sys2Proof/Proofs/Steps.lean ====
section
/-! PROOF. What a bus transaction leaves as it was, and from it which turns can move the flags and the key store. -/

namespace Sys2Proof.Proofs

open Sys2Proof.Machine Sys2Proof.Safety Sys2Proof.Laws

/-! ## The bus transaction -/

theorem busFrame_refl (s : State) : BusFrame s s := by constructor <;> rfl

theorem busFrame_ramWrite (w : Window) (o : Nat) (bs : List Byte) (s : State) : BusFrame s (ramWrite w o bs s) := by
  constructor <;> rfl

/-- A CMD write leaves the bus, OVR and the length registers alone, whether it is accepted or rejected (R110). -/
theorem commandFrame_presentCommand (v : Word) (s : State) : CommandFrame s (presentCommand v s) := by
  cases hd : decode v with
  | instr i => rw [presentCommand_of_instr hd]; constructor <;> rfl
  | illegal e => rw [presentCommand_of_illegal hd]; constructor <;> rfl

theorem presentCommand_ks (v : Word) (s : State) : (presentCommand v s).ks = s.ks := by
  cases hd : decode v with
  | instr i => rw [presentCommand_of_instr hd]; rfl
  | illegal e => rw [presentCommand_of_illegal hd]; rfl

/-- Only a valid word sets BUSY (R110). -/
theorem decode_of_presentCommand_busy {v : Word} {s : State} (h : (presentCommand v s).busy = true) :
    ∃ i, decode v = .instr i := by
  cases hd : decode v with
  | instr i => exact ⟨i, rfl⟩
  | illegal e => rw [presentCommand_of_illegal hd] at h; cases h

/-- A register is reached by a word access at its offset alone. -/
theorem offset_of_locate_reg {cap a size : Nat} {r : Reg} (h : locate cap a size = some (.reg r)) :
    a = regOffset r ∧ size = 4 := by
  obtain ⟨r', hr, ha, hsize⟩ | ⟨w, o, -, -, ⟨ht, -⟩ | ⟨ht, -⟩⟩ := locate_eq_some h
  · cases hr; exact ⟨ha, hsize⟩
  · cases ht
  · cases ht

/-- A bus transaction keeps to its frame, unless it is a CMD write to an idle block. -/
theorem busTxn_frame_or_command (x : Txn) (s : State) :
    BusFrame s (busTxn x s) ∨
    (x.dir = .wr ∧ x.size = 4 ∧ relAddr s.cfg x.addr = 0 ∧ s.busy = false ∧
      ∃ d r, busTxn x s = { presentCommand x.wdata s with draws := d, resp := r }) := by
  rcases busTxn_cases x s with ⟨d, r, ht⟩ | ⟨tgt, hloc, ⟨-, e, k, d, r, ht⟩ | ⟨hwr, d, r, ht⟩⟩
  · exact .inl (ht ▸ { busFrame_refl s with })
  · exact .inl (ht ▸ { busFrame_refl s with })
  · rcases writeTarget_cases tgt x.wdata s with ⟨rfl, hb, hw⟩ | ⟨ml, kl, ov, hw, -⟩ | ⟨w, o, bs, -, hw, -⟩
    · obtain ⟨ha, hsize⟩ := offset_of_locate_reg hloc
      exact .inr ⟨hwr, hsize, ha, hb, d, r, by rw [ht, hw]⟩
    · exact .inl (by rw [ht, hw]; exact { busFrame_refl s with })
    · exact .inl (by rw [ht, hw]; exact { busFrame_ramWrite w o bs s with })

/-- OVR falls by a STATUS write with bit 2 set alone (R24). -/
theorem busTxn_clears_ovr {x : Txn} {s : State} (hs : s.ovr = true) (ht : (busTxn x s).ovr = false) :
    x.dir = .wr ∧ relAddr s.cfg x.addr = 0x004 ∧ x.wdata.getLsbD 2 = true := by
  have hkept : (busTxn x s).ovr ≠ s.ovr := by rw [hs, ht]; decide
  rcases busTxn_cases x s with ⟨d, r, h⟩ | ⟨tgt, hloc, ⟨-, e, k, d, r, h⟩ | ⟨hwr, d, r, h⟩⟩ <;> rw [h] at hkept ht
  · exact absurd rfl hkept
  · exact absurd rfl hkept
  · rcases writeTarget_cases tgt x.wdata s with ⟨-, -, hw⟩ | ⟨ml, kl, ov, hw, hov⟩ | ⟨w, o, bs, -, hw, -⟩ <;>
      rw [hw] at hkept ht
    · exact absurd (commandFrame_presentCommand x.wdata s).ovr hkept
    · obtain hov | hov | ⟨rfl, hbit⟩ := hov
      · exact absurd hov hkept
      · exact absurd (hov.symm.trans ht) (by decide)
      · obtain ⟨ha, -⟩ := offset_of_locate_reg hloc
        exact ⟨hwr, ha, hbit⟩
    · exact absurd rfl hkept

/-! ## The flags -/

/-- Settles O6: no other turn than the bus's raises BUSY, and no other transaction than an accepted CMD write. -/
theorem onlyAValidCommandWriteSetsBusy : Obligations.OnlyAValidCommandWriteSetsBusy := by
  unfold Obligations.OnlyAValidCommandWriteSetsBusy
  intro s t hstep hidle hbusy
  have hrises : t.busy ≠ s.busy := by rw [hidle, hbusy]; decide
  rcases step_cases s t hstep with ⟨s0, hs0, hturn⟩ | ⟨x, rest, ha, -, rfl⟩ | ⟨l, rest, -, rfl⟩ | ⟨rest, -, rfl⟩ |
    ⟨b, rest, -, -, -, -, rfl⟩
  case inl =>
    obtain ⟨-, rfl⟩ | ⟨hb, -⟩ := hturn
    · obtain ⟨-, rfl⟩ | ⟨rest, -, rfl⟩ := hs0 <;> exact absurd rfl hrises
    · exact absurd (hb.symm.trans hidle) (by decide)
  case inr.inl =>
    obtain hframe | ⟨hwr, hsize, haddr, -, d, r, ht⟩ := busTxn_frame_or_command x { s with agenda := rest }
    · exact absurd hframe.busy hrises
    · rw [ht] at hbusy
      obtain ⟨i, hi⟩ := decode_of_presentCommand_busy hbusy
      exact ⟨x, rest, i, ha, hwr, hsize, haddr, hi⟩
  case inr.inr.inl =>
    cases l with
    | false => exact absurd rfl hrises
    | true => cases hbusy
  case inr.inr.inr.inl => cases hbusy
  case inr.inr.inr.inr => exact absurd rfl hrises

/-- Settles O7: a bus transaction and a key file leave BUSY up, the engine's turn ends the command. -/
theorem busyFallsOnlyAtCompletionOrReset : Obligations.BusyFallsOnlyAtCompletionOrReset := by
  unfold Obligations.BusyFallsOnlyAtCompletionOrReset
  intro s t hstep hbusy hidle
  have hfalls : t.busy ≠ s.busy := by rw [hidle, hbusy]; decide
  rcases step_cases s t hstep with ⟨s0, hs0, hturn⟩ | ⟨x, rest, -, -, rfl⟩ | ⟨l, rest, ha, rfl⟩ | ⟨rest, ha, rfl⟩ |
    ⟨b, rest, -, -, -, -, rfl⟩
  case inl =>
    obtain ⟨hb, -⟩ | ⟨-, i, -, hexec⟩ := hturn
    · exact absurd (hbusy.symm.trans hb) (by decide)
    · obtain ⟨-, hdone, -⟩ := exec_ended i s0 t hexec
      exact .inl ⟨hdone, hs0.imp (fun ⟨ha, _⟩ => ha) (fun ⟨rest, ha, _⟩ => ⟨rest, ha⟩)⟩
  case inr.inl =>
    obtain hframe | ⟨-, -, -, hb, -⟩ := busTxn_frame_or_command x { s with agenda := rest }
    · exact absurd hframe.busy hfalls
    · exact absurd (hbusy.symm.trans hb) (by decide)
  case inr.inr.inl =>
    cases l with
    | false => exact absurd rfl hfalls
    | true => exact .inr ⟨rest, .inl ha⟩
  case inr.inr.inr.inl => exact .inr ⟨rest, .inr ha⟩
  case inr.inr.inr.inr => exact absurd rfl hfalls

/-- Settles O8: an idle engine's turn, the key file and the release of `rst` change none of the flags, and a command leaves
OVR; the rest is in the frame of a bus transaction. -/
theorem statusFlagsAreStickyUntilTheirEvents : Obligations.StatusFlagsAreStickyUntilTheirEvents := by
  unfold Obligations.StatusFlagsAreStickyUntilTheirEvents
  intro s t hstep
  rcases step_cases s t hstep with ⟨s0, hs0, hturn⟩ | ⟨x, rest, ha, -, rfl⟩ | ⟨l, rest, ha, rfl⟩ | ⟨rest, ha, rfl⟩ |
    ⟨b, rest, -, -, -, -, rfl⟩
  case inl =>
    have h0 : s0.ovr = s.ovr ∧ s0.done = s.done ∧ s0.err = s.err ∧ s0.otpState = s.otpState := by
      obtain ⟨-, rfl⟩ | ⟨rest, -, rfl⟩ := hs0 <;> exact ⟨rfl, rfl, rfl, rfl⟩
    obtain ⟨hovr, hdone, herr, hotp⟩ := h0
    obtain ⟨-, rfl⟩ | ⟨hb, i, -, hexec⟩ := hturn
    · refine ⟨fun hs ht => ?_, fun _ hmoved => absurd hmoved (by simp [hdone, herr, hotp])⟩
      rw [hovr, hs] at ht
      cases ht
    · obtain ⟨-, -, hframe⟩ := exec_ended i s0 t hexec
      refine ⟨fun hs ht => ?_, fun hidle => absurd (hb.symm.trans hidle) (by decide)⟩
      rw [hframe.ovr, hovr, hs] at ht
      cases ht
  case inr.inl =>
    refine ⟨fun hs ht => ?_, fun _ hmoved => ?_⟩
    · exact ⟨_, rest, ha, .inr (.inr ⟨x, rfl, busTxn_clears_ovr (s := { s with agenda := rest }) hs ht⟩)⟩
    · obtain hframe | ⟨hwr, hsize, haddr, -⟩ := busTxn_frame_or_command x { s with agenda := rest }
      · exact absurd hmoved (by simp [hframe.done, hframe.err, hframe.otpState])
      · exact ⟨_, rest, ha, .inr (.inr ⟨x, rfl, hwr, hsize, haddr⟩)⟩
  case inr.inr.inl =>
    cases l with
    | true => exact ⟨fun _ _ => ⟨_, rest, ha, .inl rfl⟩, fun _ _ => ⟨_, rest, ha, .inl rfl⟩⟩
    | false =>
      refine ⟨fun hs ht => ?_, fun _ hmoved => absurd hmoved (by simp [setRst])⟩
      have hkept : s.ovr = false := ht
      rw [hs] at hkept
      cases hkept
  case inr.inr.inr.inl => exact ⟨fun _ _ => ⟨_, rest, ha, .inr (.inl rfl)⟩, fun _ _ => ⟨_, rest, ha, .inr (.inl rfl)⟩⟩
  case inr.inr.inr.inr =>
    refine ⟨fun hs ht => ?_, fun _ hmoved => absurd hmoved (by simp)⟩
    rw [hs] at ht
    cases ht

/-! ## The key store -/

theorem busTxn_ks (x : Txn) (s : State) : (busTxn x s).ks = s.ks := by
  obtain hframe | ⟨-, -, -, -, d, r, ht⟩ := busTxn_frame_or_command x s
  · exact hframe.ks
  · rw [ht]
    exact presentCommand_ks x.wdata s

/-- Settles O29: an OTP_XOR.T and a reset in the middle of one cut the key store's end off; no other turn but the key file's
touches it. -/
theorem noStepAltersAKeyByte : Obligations.NoStepAltersAKeyByte := by
  unfold Obligations.NoStepAltersAKeyByte
  intro s t hstep hnokey
  have whole : t.ks = s.ks → ∃ n, t.ks = s.ks.take n := fun h => ⟨s.ks.length, by rw [h, List.take_length]⟩
  rcases step_cases s t hstep with ⟨s0, hs0, hturn⟩ | ⟨x, rest, -, -, rfl⟩ | ⟨l, rest, -, rfl⟩ | ⟨rest, -, rfl⟩ |
    ⟨b, rest, ha, -⟩
  case inl =>
    have hks : s0.ks = s.ks := by obtain ⟨-, rfl⟩ | ⟨rest, -, rfl⟩ := hs0 <;> rfl
    obtain ⟨-, rfl⟩ | ⟨-, i, -, hexec⟩ := hturn
    · exact whole hks
    · obtain ⟨hkept | ⟨hi, herr⟩, htruncated⟩ := onlyATruncatingOtpXorChangesTheKeyStore i s0 t hexec
      · exact whole (hkept.trans hks)
      · obtain ⟨-, hleft⟩ := htruncated hi herr
        exact ⟨_, hks ▸ hleft⟩
  case inr.inl => exact whole (busTxn_ks x _)
  case inr.inr.inl =>
    cases l with
    | false => exact whole rfl
    | true => exact ksAfterReset_eq_take { s with agenda := rest }
  case inr.inr.inr.inl => exact ksAfterReset_eq_take { s with agenda := rest }
  case inr.inr.inr.inr => exact absurd ha (hnokey b rest)

end Sys2Proof.Proofs
end

