-- ==== Sys2Proof/Proofs/BusAccess.lean ====
section
/-! PROOF. Which accesses are legal, and what a bus error is. -/

namespace Sys2Proof.Proofs

open Sys2Proof.Machine Sys2Proof.Safety Sys2Proof.Laws

/-! ## The legal accesses -/

/-- An access R61, R65, R66 and R67 allow: a word access at a register, or a byte or an aligned word of a RAM. -/
def LegalAccess (cap a size : Nat) : Prop :=
  (size = 4 ∧ a % 4 = 0 ∧ (a ≤ 0x18 ∨ (0x20 ≤ a ∧ a ≤ 0x3C))) ∨
  (∃ w o, a = windowBase w + o ∧ ((size = 1 ∧ o < cap) ∨ (size = 4 ∧ o % 4 = 0 ∧ o + 4 ≤ cap)))

theorem regOffset_aligned (r : Reg) :
    regOffset r % 4 = 0 ∧ (regOffset r ≤ 0x18 ∨ (0x20 ≤ regOffset r ∧ regOffset r ≤ 0x3C)) := by
  cases r with
  | digest i => have := i.isLt; simp only [regOffset]; omega
  | _ => decide

/-- The register window has a register at every aligned offset but 0x1C, up to DIGEST7 (10_state.md section 3). -/
theorem exists_regOffset_eq {a : Nat} (h4 : a % 4 = 0) (h : a ≤ 0x18 ∨ (0x20 ≤ a ∧ a ≤ 0x3C)) :
    ∃ r, regOffset r = a := by
  obtain hlow | ⟨hlo, hhi⟩ := h
  · have hcases : a = 0 ∨ a = 4 ∨ a = 8 ∨ a = 12 ∨ a = 16 ∨ a = 20 ∨ a = 24 := by omega
    obtain rfl | rfl | rfl | rfl | rfl | rfl | rfl := hcases
    exacts [⟨.cmd, rfl⟩, ⟨.status, rfl⟩, ⟨.msgLen, rfl⟩, ⟨.keyLen, rfl⟩, ⟨.outLen, rfl⟩, ⟨.ksSize, rfl⟩, ⟨.bufCap, rfl⟩]
  · exact ⟨.digest ⟨(a - 0x20) / 4, by omega⟩, by simp only [regOffset]; omega⟩

/-- The address map reaches something exactly for the legal accesses. -/
theorem locate_eq_some_iff_legal {cap a size : Nat} (hcap : cap ≤ 0x10000) :
    (∃ tgt, locate cap a size = some tgt) ↔ LegalAccess cap a size := by
  constructor
  · rintro ⟨tgt, h⟩
    obtain ⟨r, -, rfl, hsize⟩ | ⟨w, o, -, ha, ⟨-, hacc⟩ | ⟨-, hacc⟩⟩ := locate_eq_some h
    · exact .inl ⟨hsize, regOffset_aligned r⟩
    · exact .inr ⟨w, o, ha, .inl hacc⟩
    · exact .inr ⟨w, o, ha, .inr hacc⟩
  · rintro (⟨rfl, h4, hrange⟩ | ⟨w, o, rfl, hacc⟩)
    · obtain ⟨r, rfl⟩ := exists_regOffset_eq h4 hrange
      exact ⟨_, locate_reg cap r⟩
    · have hram : locate cap (windowBase w + o) size = ramTarget cap w o size := locate_ram cap w o size (by omega)
      obtain hbyte | hword := hacc
      · exact ⟨.byte w o, by rw [hram, ramTarget, if_pos hbyte]⟩
      · exact ⟨.word w o, by rw [hram, ramTarget, if_neg (by omega), if_pos hword]⟩

/-! ## The two kinds of response -/

theorem performTxn_resp (x : Txn) (tgt : Target) (s : State) :
    (performTxn x tgt s).resp.map BusResp.resp = some .ok := by
  unfold performTxn
  cases x.dir <;> rfl

theorem busError_eq (x : Txn) (s : State) : ∃ (r : BusResp) (d : Nat), r.resp = .busError ∧
    (x.dir = .rd → r.rdata = 0 ∧ d = s.draws) ∧ busError x s = { s with resp := some r, draws := d } := by
  unfold busError
  cases x.dir with
  | rd => exact ⟨_, _, rfl, fun _ => ⟨rfl, rfl⟩, rfl⟩
  | wr => exact ⟨_, _, rfl, nofun, respond_freeRdata ..⟩

/-- Settles O42: a legal access reaches a target and is performed, and any other is a bus error. -/
theorem illegalAccessIsABusErrorAndChangesNothing : Obligations.IllegalAccessIsABusErrorAndChangesNothing := by
  unfold Obligations.IllegalAccessIsABusErrorAndChangesNothing
  intro s x hrst hwf a legal
  obtain ⟨-, hcap⟩ := bufCap_le_of_wf hwf
  have hlegal : (∃ tgt, locate s.cfg.bufCap (relAddr s.cfg x.addr) x.size = some tgt) ↔ legal :=
    locate_eq_some_iff_legal hcap
  rw [busTurn_of_running hrst]
  refine ⟨fun h => ?_, fun h => ?_⟩
  · obtain ⟨tgt, hloc⟩ := hlegal.2 h
    exact ⟨_, rfl, by rw [busTxn_of_locate hloc]; exact performTxn_resp x tgt s⟩
  · have hloc : locate s.cfg.bufCap (relAddr s.cfg x.addr) x.size = none :=
      Option.eq_none_iff_forall_ne_some.2 fun tgt ht => h (hlegal.1 ⟨tgt, ht⟩)
    obtain ⟨r, d, hr, hrd, ht⟩ := busError_eq x s
    exact ⟨r, d, hr, hrd, by rw [busTxn_of_not_located hloc, ht]⟩

end Sys2Proof.Proofs
end

