-- ==== Sys2Proof/Proofs/BusReads.lean ====
section
/-! PROOF. What the reads of registers and RAM return, idle and busy, and what they leave as it was. -/

namespace Sys2Proof.Proofs

open Sys2Proof.Machine Sys2Proof.Safety Sys2Proof.Laws

/-! ## The reads of stored values -/

/-- A register read that returns a stored value changes nothing but the response. -/
theorem busTurn_regRead {s : State} (hrst : s.rst = false) {r : Reg} {d : Word} (h : readReg r s = (d, s)) :
    busTurn (regRead s.cfg r) s = .next { s with resp := some { resp := .ok, rdata := d } } := by
  rw [busTurn_of_running hrst, busTxn_regRead, h, respond]

theorem readReg_digest_idle {s : State} (hb : s.busy = false) (i : Fin 8) :
    readReg (.digest i) s = (digestWord s.eng.h i, s) := by
  rw [readReg, if_neg (Bool.eq_false_iff.1 hb)]

/-- A RAM byte that is not a draw: of MSG and KEY always, of OUT while idle (R114). -/
theorem readRamByte_stored {s : State} {w : Window} (hw : w ≠ .out ∨ s.busy = false) (o : Nat) :
    readRamByte w o s = ((readByte s (ramAddr w o)).setWidth 32, s) := by
  rw [readRamByte, if_neg]
  rintro ⟨hout, hb⟩
  exact hw.elim (· hout) fun hidle => Bool.eq_false_iff.1 hidle hb

theorem readRamWord_stored {s : State} {w : Window} (hw : w ≠ .out ∨ s.busy = false) (o : Nat) :
    readRamWord w o s = (readWordBE s (ramAddr w o), s) := by
  rw [readRamWord, if_neg]
  rintro ⟨hout, hb⟩
  exact hw.elim (· hout) fun hidle => Bool.eq_false_iff.1 hidle hb

theorem busTurn_byteRead {s : State} (hrst : s.rst = false) (hwf : s.cfg.wf = true) {w : Window} {o : Nat}
    (hw : w ≠ .out ∨ s.busy = false) (ho : o < s.cfg.bufCap) : busTurn (byteRead s.cfg w o) s =
      .next { s with resp := some { resp := .ok, rdata := (readByte s (ramAddr w o)).setWidth 32 } } := by
  rw [busTurn_of_running hrst, busTxn_byteRead w o s hwf ho, readRamByte_stored hw, respond]

theorem busTurn_wordRead {s : State} (hrst : s.rst = false) (hwf : s.cfg.wf = true) {w : Window} {o : Nat}
    (hw : w ≠ .out ∨ s.busy = false) (h4 : o % 4 = 0) (ho : o + 4 ≤ s.cfg.bufCap) : busTurn (wordRead s.cfg w o) s =
      .next { s with resp := some { resp := .ok, rdata := readWordBE s (ramAddr w o) } } := by
  rw [busTurn_of_running hrst, busTxn_wordRead w o s hwf h4 ho, readRamWord_stored hw, respond]

theorem readWordBE_eq (s : State) (a : Nat) : readWordBE s a =
    wordOfBytes (readByte s a) (readByte s (a + 1)) (readByte s (a + 2)) (readByte s (a + 3)) := rfl

/-- Settles O52: the registers one by one, and the RAM by byte and by word. -/
theorem readsReturnTheStoredValues : Obligations.ReadsReturnTheStoredValues := by
  unfold Obligations.ReadsReturnTheStoredValues
  intro s hrst
  refine ⟨fun r d hstored => busTurn_regRead hrst ?_, fun w o hwf hw => ⟨busTurn_byteRead hrst hwf hw, fun h4 ho => ?_⟩⟩
  · obtain ⟨rfl, rfl⟩ | ⟨rfl, rfl⟩ | ⟨rfl, rfl⟩ | ⟨rfl, rfl⟩ | ⟨rfl, rfl⟩ | ⟨hb, i, rfl, rfl⟩ := hstored
    case inr.inr.inr.inr.inr => exact readReg_digest_idle hb i
    all_goals rfl
  · refine ⟨_, busTurn_wordRead hrst hwf hw h4 ho, ?_⟩
    rw [readWordBE_eq]
    exact wordOfBytes_lanes ..

/-! ## The status word -/

/-- The flags of a word put together as STATUS is (R24). -/
theorem statusFields (otp : BitVec 2) (err : BitVec 4) (ovr done busy : Bool) (d : Word)
    (hd : d = (otp.setWidth 32 <<< 8) ||| (err.setWidth 32 <<< 4) ||| ((BitVec.ofBool ovr).setWidth 32 <<< 2) |||
      ((BitVec.ofBool done).setWidth 32 <<< 1) ||| (BitVec.ofBool busy).setWidth 32) :
    d.getLsbD 0 = busy ∧ d.getLsbD 1 = done ∧ d.getLsbD 2 = ovr ∧ d.getLsbD 3 = false ∧
    d.extractLsb' 10 22 = 0 ∧ d.extractLsb' 4 4 = err ∧ d.extractLsb' 8 2 = otp := by
  subst hd
  refine ⟨by simp, by simp, by simp, by simp, ?_, ?_, ?_⟩ <;> ext i hi
  · simp [show ¬ 10 + i < 8 by omega, show ¬ 10 + i - 2 = 0 by omega, BitVec.getLsbD_of_ge otp (10 + i - 8) (by omega),
      BitVec.getLsbD_of_ge err (10 + i - 4) (by omega), show ¬ 10 + i < 4 by omega, show ¬ 10 + i < 2 by omega]
  · simp [show 4 + i < 8 by omega, show 4 + i < 32 by omega, show ¬ 4 + i - 2 = 0 by omega, BitVec.getLsbD_eq_getElem hi]
  · simp [show 8 + i < 32 by omega, show ¬ 8 + i - 2 = 0 by omega, BitVec.getLsbD_eq_getElem hi,
      BitVec.getLsbD_of_ge err (8 + i - 4) (by omega)]

/-- Settles O49: STATUS is put together from its fields, and a read of it returns it. -/
theorem statusReadShowsTheFlags : Obligations.StatusReadShowsTheFlags := by
  unfold Obligations.StatusReadShowsTheFlags
  intro s hrst
  obtain ⟨hbusy, hdone, hovr, h3, hhigh, herr, hotp⟩ :=
    statusFields (otpBits s.otpState) (errBits s.err) s.ovr s.done s.busy (statusWord s) rfl
  refine ⟨_, statusWord s, busTurn_regRead hrst rfl, rfl, rfl, hbusy, hdone, hovr, h3, hhigh, ?_, ?_⟩
  · rw [herr]; cases s.err <;> rfl
  · rw [hotp]; cases s.otpState <;> rfl

/-! ## KS_SIZE -/

theorem readKsSize_eq (s : State) :
    readKsSize s = (if requestFails 0 s then 0xFFFFFFFF else BitVec.ofNat 32 s.ks.length, takeAnswer s) := by
  have hfirst : requestFails 0 s = nextIoFail s := rfl
  rw [hfirst, readKsSize, ksSize]
  cases nextIoFail s <;> rfl

/-- Settles O51: the read makes the size request and nothing else. -/
theorem keyStoreSizeReadIsLive : Obligations.KeyStoreSizeReadIsLive := by
  unfold Obligations.KeyStoreSizeReadIsLive
  intro s hrst hb
  have hread : readReg .ksSize s = readKsSize s := by rw [readReg, if_neg (Bool.eq_false_iff.1 hb)]
  refine ⟨_, by rw [busTurn_of_running hrst, busTxn_regRead, hread, readKsSize_eq], ?_, rfl⟩
  rw [← takeAnswer_ksEnv]
  simp only [respond]
  rw [takeAnswer_eq]

/-! ## No side effect -/

/-- A target whose read is no draw and no request: what KS_SIZE is not, and DIGESTi and OUT are while idle (R69, R114). -/
def StoredTarget (busy : Bool) : Target → Prop
  | .reg .ksSize => False
  | .reg (.digest _) => busy = false
  | .reg _ => True
  | .byte w _ => w ≠ .out ∨ busy = false
  | .word w _ => w ≠ .out ∨ busy = false

theorem readTarget_stored {tgt : Target} {s : State} (h : StoredTarget s.busy tgt) : (readTarget tgt s).2 = s := by
  cases tgt with
  | reg r =>
    cases r with
    | ksSize => exact h.elim
    | digest i => rw [readTarget, readReg_digest_idle h]
    | _ => rfl
  | byte w o => rw [readTarget, readRamByte_stored h]
  | word w o => rw [readTarget, readRamWord_stored h]

/-- No read returns the response to the transaction before it. -/
theorem readTarget_resp (tgt : Target) (s : State) (r : Option BusResp) :
    (readTarget tgt { s with resp := r }).1 = (readTarget tgt s).1 := by
  cases tgt with
  | reg r =>
    cases r with
    | ksSize =>
      simp only [readTarget, readReg, readKsSize_eq]
      split <;> rfl
    | digest i => simp only [readTarget, readReg]; split <;> rfl
    | _ => rfl
  | byte w o => simp only [readTarget, readRamByte]; split <;> rfl
  | word w o => simp only [readTarget, readRamWord]; split <;> rfl

/-- The addresses of KS_SIZE, DIGESTi and OUT are those that R114 and C7 except. -/
theorem storedTarget_of_locate {cap a size : Nat} {tgt : Target} {busy : Bool} (h : locate cap a size = some tgt)
    (hks : a ≠ 0x014) (hbusy : busy = true → ¬ (0x020 ≤ a ∧ a ≤ 0x03C) ∧ ¬ (0x30000 ≤ a ∧ a < 0x40000)) :
    StoredTarget busy tgt := by
  have hidle : ((0x020 ≤ a ∧ a ≤ 0x03C) ∨ (0x30000 ≤ a ∧ a < 0x40000)) → busy = false := fun hdraws =>
    Bool.eq_false_iff.2 fun hb => (hbusy hb).elim fun hdigest hout => hdraws.elim hdigest hout
  obtain ⟨r, rfl, rfl, -⟩ | ⟨w, o, hwin, -, htgt⟩ := locate_eq_some h
  · cases r with
    | ksSize => exact hks rfl
    | digest i =>
      have hi := i.isLt
      exact hidle (.inl (by simp only [regOffset]; omega))
    | _ => trivial
  · have hout : w ≠ .out ∨ busy = false := by
      by_cases hw : w = .out
      · subst hw
        exact .inr (hidle (.inr (windowBase_le_of_windowAt hwin)))
      · exact .inl hw
    obtain ⟨rfl, -⟩ | ⟨rfl, -⟩ := htgt <;> exact hout

/-- A read of a stored value changes nothing but the response, and returns the same whatever the response before it. -/
theorem busTxn_read_stored {s : State} {x : Txn} {tgt : Target} (hrd : x.dir = .rd)
    (hloc : locate s.cfg.bufCap (relAddr s.cfg x.addr) x.size = some tgt) (hst : StoredTarget s.busy tgt)
    (r : Option BusResp) :
    busTxn x { s with resp := r } = { s with resp := some ⟨.ok, (readTarget tgt s).1⟩ } := by
  have hstate : (readTarget tgt { s with resp := r }).2 = { s with resp := r } := readTarget_stored hst
  rw [busTxn_of_locate (s := { s with resp := r }) hloc, performTxn, hrd]
  simp only [respond, readTarget_resp, hstate]

theorem busTxn_read_not_located {s : State} {x : Txn} (hrd : x.dir = .rd)
    (hloc : locate s.cfg.bufCap (relAddr s.cfg x.addr) x.size = none) (r : Option BusResp) :
    busTxn x { s with resp := r } = { s with resp := some ⟨.busError, 0⟩ } := by
  rw [busTxn_of_not_located (s := { s with resp := r }) hloc, busError, hrd]
  rfl

/-- A read that answers the same whatever the response before it can be repeated. -/
theorem busTurn_repeats {s : State} {x : Txn} {a : BusResp} (hrst : s.rst = false)
    (h : ∀ r, busTxn x { s with resp := r } = { s with resp := some a }) :
    busTxn x s = { s with resp := (busTxn x s).resp } ∧ busTurn x (busTxn x s) = .next (busTxn x s) := by
  have hfirst : busTxn x s = { s with resp := some a } := h s.resp
  rw [hfirst]
  exact ⟨rfl, (busTurn_of_running (s := { s with resp := some a }) hrst x).trans (congrArg _ (h (some a)))⟩

/-- Settles O50: by the target a read reaches, if it reaches one. -/
theorem readsHaveNoSideEffect : Obligations.ReadsHaveNoSideEffect := by
  unfold Obligations.ReadsHaveNoSideEffect
  intro s x hrst hrd a
  refine ⟨busTxn x s, busTurn_of_running hrst x, ?_⟩
  cases hloc : locate s.cfg.bufCap (relAddr s.cfg x.addr) x.size with
  | none =>
    have hread := busTxn_read_not_located hrd hloc
    have hfirst : busTxn x s = { s with resp := some ⟨.busError, 0⟩ } := hread s.resp
    exact ⟨by rw [hfirst], fun _ => busTurn_repeats hrst hread⟩
  | some tgt =>
    have hread : busTxn x s = respond .ok (readTarget tgt s) := by rw [busTxn_of_locate hloc, performTxn, hrd]
    constructor
    · rw [hread]
      simp only [respond]
      rw [readTarget_state]
    · rintro (⟨hks, hbusy⟩ | herr)
      · exact busTurn_repeats hrst (busTxn_read_stored hrd hloc (storedTarget_of_locate hloc hks hbusy))
      · rw [hread] at herr
        cases herr

/-! ## Busy reads -/

/-- The state with other bytes in its RAMs, another hash state and another key store. -/
def withHidden (m : Memory) (h : Hash) (ks : List Byte) (s : State) : State :=
  { s with mem := m, eng := { s.eng with h := h }, ks := ks }

theorem ramAddr_add (w : Window) (o j : Nat) : ramAddr w (o + j) = ramAddr w o + j := (Nat.add_assoc ..).symm

theorem readByte_withHidden {m : Memory} (h : Hash) (ks : List Byte) {s : State}
    (hm : ∀ a, (a < windowBase .out ∨ windowBase .out + 0x10000 ≤ a) → memFind m a = memFind s.mem a)
    {w : Window} {o : Nat} (hw : w ≠ .out) (ho : o < 0x10000) :
    readByte (withHidden m h ks s) (ramAddr w o) = readByte s (ramAddr w o) := by
  have hbelow : ramAddr w o < windowBase .out := by
    cases w with
    | out => exact absurd rfl hw
    | _ => simp only [ramAddr, windowBase]; omega
  rw [readByte, readByte, withHidden, hm _ (.inl hbelow)]

/-- While BUSY, a read of a located target returns the same whatever H, OUT and the key store hold (R114). -/
theorem readTarget_withHidden_busy {s : State} {m : Memory} (h : Hash) (ks : List Byte) {a size : Nat} {tgt : Target}
    (hb : s.busy = true) (hcap : s.cfg.bufCap ≤ 0x10000) (hloc : locate s.cfg.bufCap a size = some tgt)
    (hm : ∀ a, (a < windowBase .out ∨ windowBase .out + 0x10000 ≤ a) → memFind m a = memFind s.mem a) :
    (readTarget tgt (withHidden m h ks s)).1 = (readTarget tgt s).1 := by
  have hb' : (withHidden m h ks s).busy = true := hb
  cases tgt with
  | reg r =>
    cases r with
    | ksSize | digest i => simp only [readTarget, readReg, hb, hb', if_true]; rfl
    | _ => rfl
  | byte w o =>
    have ho := lt_bufCap_of_locate_byte hloc
    simp only [readTarget, readRamByte, hb, hb', and_true]
    split
    case isTrue => rfl
    case isFalse hw => rw [readByte_withHidden h ks hm hw (by omega)]
  | word w o =>
    have ho := le_bufCap_of_locate_word hloc
    simp only [readTarget, readRamWord, hb, hb', and_true]
    split
    case isTrue => rfl
    case isFalse hw =>
      have hbytes : ∀ j, j < 4 → readByte (withHidden m h ks s) (ramAddr w o + j) = readByte s (ramAddr w o + j) :=
        fun j hj => by rw [← ramAddr_add]; exact readByte_withHidden h ks hm hw (by omega)
      rw [readWordBE, readWordBE, readBytes_congr _ 4 hbytes]

/-- Settles O53: the two states locate the same target, and a busy read of it is a draw or of a byte they share. -/
theorem busyReadsRevealNoResult : Obligations.BusyReadsRevealNoResult := by
  unfold Obligations.BusyReadsRevealNoResult
  intro s x m h ks hrst hb hwf hrd hm
  obtain ⟨-, hcap⟩ := bufCap_le_of_wf hwf
  refine ⟨_, _, busTurn_of_running hrst x, busTurn_of_running (s := withHidden m h ks s) hrst x, ?_⟩
  cases hloc : locate s.cfg.bufCap (relAddr s.cfg x.addr) x.size with
  | none =>
    have hloc' : locate (withHidden m h ks s).cfg.bufCap (relAddr (withHidden m h ks s).cfg x.addr) x.size = none := hloc
    rw [busTxn_of_not_located hloc, busTxn_of_not_located hloc', busError, busError, hrd]
    rfl
  | some tgt =>
    have hloc' : locate (withHidden m h ks s).cfg.bufCap (relAddr (withHidden m h ks s).cfg x.addr) x.size = some tgt :=
      hloc
    rw [busTxn_of_locate hloc, busTxn_of_locate hloc', performTxn, performTxn, hrd]
    simp only [respond_resp, readTarget_withHidden_busy h ks hb hcap hloc hm]

end Sys2Proof.Proofs
end

