-- ==== Sys2Proof/Proofs/BusWrites.lean ====
section
/-! PROOF. What the writes to registers and RAM store, idle and busy, and what they leave as it was. -/

namespace Sys2Proof.Proofs

open Sys2Proof.Machine Sys2Proof.Safety Sys2Proof.Laws

/-! ## A write and its response -/

/-- The response of a write and the count of its draw are all it adds to what the target takes (R91, assumption 9). -/
theorem respond_ok_freeRdata (size : Nat) (s : State) : ∃ (r : BusResp) (d : Nat), r.resp = .ok ∧
    respond .ok (freeRdata size s) = { s with resp := some r, draws := d } :=
  ⟨_, _, rfl, respond_freeRdata .ok size s⟩

theorem busTurn_regWrite {s : State} (hrst : s.rst = false) (r : Reg) (v : Word) : ∃ (a : BusResp) (d : Nat),
    a.resp = .ok ∧ busTurn (regWrite s.cfg r v) s = .next { writeReg r v s with resp := some a, draws := d } := by
  rw [busTurn_of_running hrst, busTxn_regWrite]
  obtain ⟨a, d, ha, ht⟩ := respond_ok_freeRdata 4 (writeReg r v s)
  exact ⟨a, d, ha, by rw [ht]⟩

/-- The rdata after a byte write is a byte, zero-extended (R91). -/
theorem busTurn_byteWrite {s : State} (hrst : s.rst = false) (hwf : s.cfg.wf = true) {w : Window} {o : Nat} (v : Word)
    (ho : o < s.cfg.bufCap) : ∃ (b : Byte) (d : Nat), busTurn (byteWrite s.cfg w o v) s =
      .next { writeRam w o [v.extractLsb' 0 8] s with resp := some ⟨.ok, b.setWidth 32⟩, draws := d } := by
  rw [busTurn_of_running hrst, busTxn_byteWrite w o v s hwf ho, respond_freeRdata, freeRdata_byte]
  exact ⟨_, _, rfl⟩

theorem busTurn_wordWrite {s : State} (hrst : s.rst = false) (hwf : s.cfg.wf = true) {w : Window} {o : Nat} (v : Word)
    (h4 : o % 4 = 0) (ho : o + 4 ≤ s.cfg.bufCap) : ∃ (a : BusResp) (d : Nat), a.resp = .ok ∧
    busTurn (wordWrite s.cfg w o v) s = .next { writeRam w o (beBytes v) s with resp := some a, draws := d } := by
  rw [busTurn_of_running hrst, busTxn_wordWrite w o v s hwf h4 ho]
  obtain ⟨a, d, ha, ht⟩ := respond_ok_freeRdata 4 (writeRam w o (beBytes v) s)
  exact ⟨a, d, ha, by rw [ht]⟩

theorem whenIdle_of_idle {s : State} (h : s.busy = false) (write : State → State) : whenIdle write s = write s := by
  rw [whenIdle, if_neg (Bool.eq_false_iff.1 h)]

theorem whenIdle_of_busy {s : State} (h : s.busy = true) (write : State → State) : whenIdle write s = dropWrite s := by
  rw [whenIdle, if_pos h]

theorem writeRam_of_idle {s : State} (h : s.busy = false) {w : Window} (hw : w ≠ .out) (o : Nat) (bs : List Byte) :
    writeRam w o bs s = ramWrite w o bs s := by
  cases w with
  | out => exact absurd rfl hw
  | _ => exact whenIdle_of_idle h _

theorem writeRam_of_busy {s : State} (h : s.busy = true) {w : Window} (hw : w ≠ .out) (o : Nat) (bs : List Byte) :
    writeRam w o bs s = dropWrite s := by
  cases w with
  | out => exact absurd rfl hw
  | _ => exact whenIdle_of_busy h _

/-! ## Writes that are ignored or dropped -/

/-- Settles O46: the write of a read-only register or of OUT leaves the state alone. -/
theorem readOnlyLocationsIgnoreWrites : Obligations.ReadOnlyLocationsIgnoreWrites := by
  unfold Obligations.ReadOnlyLocationsIgnoreWrites
  rintro s x hrst hwf (⟨r, v, rfl, hr⟩ | ⟨o, v, rfl, ho⟩ | ⟨o, v, rfl, h4, ho⟩)
  · have hignored : writeReg r v s = s := by
      obtain rfl | rfl | rfl | ⟨i, rfl⟩ | ⟨rfl, hbit⟩ := hr
      case inr.inr.inr.inr => rw [writeReg, writeStatus, if_neg (Bool.eq_false_iff.1 hbit)]
      all_goals rfl
    have hturn := busTurn_regWrite hrst r v
    rwa [hignored] at hturn
  · obtain ⟨b, d, ht⟩ := busTurn_byteWrite (w := .out) hrst hwf v ho
    exact ⟨_, d, rfl, ht⟩
  · exact busTurn_wordWrite hrst hwf v h4 ho

/-- Settles O47: bit 2 selects the branch of `writeStatus` that clears OVR. -/
theorem statusWriteClearsOverrun : Obligations.StatusWriteClearsOverrun := by
  unfold Obligations.StatusWriteClearsOverrun
  intro s v hrst hbit
  have hclears : writeReg .status v s = { s with ovr := false } := by rw [writeReg, writeStatus, if_pos hbit]
  have hturn := busTurn_regWrite hrst .status v
  rwa [hclears] at hturn

/-- Settles O48: each of these writes takes effect only while idle. -/
theorem busyWritesAreDroppedAndSetOverrun : Obligations.BusyWritesAreDroppedAndSetOverrun := by
  unfold Obligations.BusyWritesAreDroppedAndSetOverrun
  rintro s x hrst hb hwf (⟨r, v, rfl, hr⟩ | ⟨w, o, v, rfl, hw, ho⟩ | ⟨w, o, v, rfl, hw, h4, ho⟩)
  · have hdropped : writeReg r v s = dropWrite s := by
      obtain rfl | rfl | rfl := hr <;> rw [writeReg, whenIdle_of_busy hb]
    have hturn := busTurn_regWrite hrst r v
    rwa [hdropped] at hturn
  · obtain ⟨b, d, ht⟩ := busTurn_byteWrite (w := w) hrst hwf v ho
    rw [writeRam_of_busy hb hw] at ht
    exact ⟨_, d, rfl, ht⟩
  · have hturn := busTurn_wordWrite (w := w) hrst hwf v h4 ho
    rwa [writeRam_of_busy hb hw] at hturn

/-! ## Writes that are stored -/

/-- Settles O45: the write of a length register stores it alone, and the read after it returns it. -/
theorem lengthRegistersStoreAnyValue : Obligations.LengthRegistersStoreAnyValue := by
  unfold Obligations.LengthRegistersStoreAnyValue
  intro s v hrst hb
  constructor
  · have hstored : writeReg .msgLen v s = { s with msgLen := v } := by
      rw [writeReg, whenIdle_of_idle hb]
    obtain ⟨a, d, -, ht⟩ := busTurn_regWrite hrst .msgLen v
    rw [hstored] at ht
    have hread := busTurn_regRead (s := { s with msgLen := v, resp := some a, draws := d }) (r := .msgLen) (d := v) hrst rfl
    exact ⟨_, _, ht, rfl, rfl, rfl, fun _ => rfl, { busFrame_refl s with }, hread, rfl⟩
  · have hstored : writeReg .keyLen v s = { s with keyLen := v } := by
      rw [writeReg, whenIdle_of_idle hb]
    obtain ⟨a, d, -, ht⟩ := busTurn_regWrite hrst .keyLen v
    rw [hstored] at ht
    have hread := busTurn_regRead (s := { s with keyLen := v, resp := some a, draws := d }) (r := .keyLen) (d := v) hrst rfl
    exact ⟨_, _, ht, rfl, rfl, rfl, fun _ => rfl, { busFrame_refl s with }, hread, rfl⟩

/-- A word written to a RAM reads back as the word. -/
theorem readWordBE_ramWrite (w : Window) (o : Nat) (v : Word) (s : State) :
    readWordBE (ramWrite w o (beBytes v) s) (ramAddr w o) = v := by
  have hback : readBytes (ramWrite w o (beBytes v) s) (ramAddr w o) 4 = beBytes v :=
    readBytes_ramWrite_self w o (beBytes v) s
  rw [readWordBE, hback, be32_beBytes]

/-- Settles O43: the write is `ramWrite` of the word's big-endian bytes. -/
theorem wordWriteIsBigEndianAndReadsBack : Obligations.WordWriteIsBigEndianAndReadsBack := by
  unfold Obligations.WordWriteIsBigEndianAndReadsBack
  intro s w o v hrst hb hwf hw h4 ho
  obtain ⟨a, d, ha, ht⟩ := busTurn_wordWrite (w := w) hrst hwf v h4 ho
  rw [writeRam_of_idle hb hw] at ht
  have hinside := readByte_ramWrite_inside w o (beBytes v) s
  have hread := busTurn_wordRead (s := { ramWrite w o (beBytes v) s with resp := some a, draws := d }) hrst hwf
    (.inl hw) h4 ho
  refine ⟨_, _, ht, hinside 0 (by simp), hinside 1 (by simp), hinside 2 (by simp), hinside 3 (by simp),
    readByte_ramWrite_outside w o (beBytes v) s, { busFrame_ramWrite w o (beBytes v) s with }, rfl, rfl, rfl,
    congrArg some ha, hread, ?_⟩
  exact congrArg (fun d => some (BusResp.mk .ok d)) (readWordBE_ramWrite w o v s)

/-- Settles O44: the write is `ramWrite` of the one byte. -/
theorem byteWriteChangesOneByteAndReadsBack : Obligations.ByteWriteChangesOneByteAndReadsBack := by
  unfold Obligations.ByteWriteChangesOneByteAndReadsBack
  intro s w o v hrst hb hwf hw ho
  obtain ⟨b, d, ht⟩ := busTurn_byteWrite (w := w) hrst hwf v ho
  rw [writeRam_of_idle hb hw] at ht
  have hinside : readByte (ramWrite w o [v.extractLsb' 0 8] s) (ramAddr w o) = v.extractLsb' 0 8 :=
    readByte_ramWrite_inside w o [v.extractLsb' 0 8] s 0 (by simp)
  have hread := busTurn_byteRead
    (s := { ramWrite w o [v.extractLsb' 0 8] s with resp := some ⟨.ok, b.setWidth 32⟩, draws := d }) hrst hwf (.inl hw) ho
  refine ⟨_, _, ht, hinside, readByte_ramWrite_outside w o [v.extractLsb' 0 8] s,
    { busFrame_ramWrite w o [v.extractLsb' 0 8] s with }, rfl, rfl, rfl, ⟨b, rfl⟩, hread, ?_⟩
  exact congrArg (fun b : Byte => some (BusResp.mk .ok (b.setWidth 32))) hinside

/-! ## CMD writes -/

/-- A CMD write to an idle block presents its word. -/
theorem busTurn_cmdWrite {s : State} (hrst : s.rst = false) (hb : s.busy = false) (v : Word) :
    ∃ (a : BusResp) (d : Nat), a.resp = .ok ∧
      busTurn (regWrite s.cfg .cmd v) s = .next { presentCommand v s with resp := some a, draws := d } := by
  have hpresents : writeReg .cmd v s = presentCommand v s := by rw [writeReg, whenIdle_of_idle hb]
  have hturn := busTurn_regWrite hrst .cmd v
  rwa [hpresents] at hturn

/-- Settles O9: a valid word is latched, with the flags cleared and BUSY set. -/
theorem validCommandWriteIsAccepted : Obligations.ValidCommandWriteIsAccepted := by
  unfold Obligations.ValidCommandWriteIsAccepted
  intro s v i hrst hb hd
  obtain ⟨a, d, ha, ht⟩ := busTurn_cmdWrite hrst hb v
  have hcommand := inProgress_presentCommand hd s
  rw [presentCommand_of_instr hd] at ht hcommand
  exact ⟨_, ht, rfl, rfl, rfl, rfl, hcommand, rfl, rfl, rfl, rfl, rfl, rfl, rfl, rfl, rfl, rfl, rfl, fun _ => rfl, rfl, rfl,
    rfl, congrArg some ha⟩

/-- Settles O10: an illegal word is completed with the error, with the flags cleared before. -/
theorem illegalCommandWriteIsRejected : Obligations.IllegalCommandWriteIsRejected := by
  unfold Obligations.IllegalCommandWriteIsRejected
  intro s v e hrst hb hd
  obtain ⟨a, d, ha, ht⟩ := busTurn_cmdWrite hrst hb v
  rw [presentCommand_of_illegal hd] at ht
  exact ⟨_, ht, rfl, rfl, rfl, rfl, rfl, rfl, rfl, rfl, rfl, rfl, rfl, fun _ => rfl, rfl, rfl, rfl, congrArg some ha⟩

end Sys2Proof.Proofs
end

