-- ==== Sys2Proof/Proofs/Platform.lean ====
section
/-! PROOF. Reset, power-on and the turns that stop. -/

namespace Sys2Proof.Proofs

open Sys2Proof.Machine Sys2Proof.Safety Sys2Proof.Laws

/-- Settles O54: the reset state holds the values as constants. -/
theorem resetStateHoldsTheStatedValues : Obligations.ResetStateHoldsTheStatedValues := by
  unfold Obligations.ResetStateHoldsTheStatedValues
  exact ⟨rfl, rfl, rfl, rfl, rfl, rfl, rfl, rfl⟩

/-- How many bytes of OUT the command in progress writes, whatever the capacity (R180, R208, R221, R236). -/
def outWritten (s : State) : Nat :=
  match inProgress s with
  | some .shaDigest => 32
  | some .hmac => 32
  | some .xor => opN s
  | some (.otpXor _) => opN s
  | some .nop => 0
  | none => 0

theorem outAtRisk_le_outWritten (s : State) : outAtRisk s ≤ outWritten s := by
  rw [outAtRisk, outWritten]
  cases inProgress s with
  | none => exact le_rfl
  | some i =>
    cases i with
    | nop => exact le_rfl
    | _ => exact Nat.min_le_left ..

/-- A reset changes no byte but those of OUT that the command in progress could write (R291). -/
theorem sameOutside_resetBlock (s : State) : SameOutside s (resetBlock s) (ramAddr .out 0) (outWritten s) := by
  intro a ha
  have hlen : (freeBytes s.draws (outAtRisk s)).length ≤ outWritten s := by
    rw [freeBytes_length]
    exact outAtRisk_le_outWritten s
  exact readByte_ramWrite_outside .out 0 (freeBytes s.draws (outAtRisk s)) s a (by omega)

/-- The key store after a reset is whole, or what an OTP_XOR.T in progress leaves of it (R237, R294). -/
theorem ksAfterReset_cases (s : State) : ksAfterReset s = s.ks ∨
    (inProgress s = some (.otpXor true) ∧ opN s ≤ s.ks.length ∧
      ksAfterReset s = s.ks.take (s.ks.length - opN s)) := by
  rw [ksAfterReset]
  split
  case isTrue hrisk =>
    obtain ⟨hrisk, -⟩ := Bool.and_eq_true_iff.1 hrisk
    obtain ⟨hcommand, hnm⟩ : inProgress s = some (.otpXor true) ∧ opN s ≤ s.ks.length := by
      simpa [truncationAtRisk] using hrisk
    exact .inr ⟨hcommand, hnm, rfl⟩
  case isFalse => exact .inl rfl

theorem statusWord_resetBlock (s : State) : statusWord (resetBlock s) = 0 := by
  simp only [statusWord, resetBlock, otpBits, errBits]
  rfl

/-- Settles O55: both are `resetBlock`, power-on with the memory emptied. -/
theorem resetClearsTheRegistersAndKeepsTheRams : Obligations.ResetClearsTheRegistersAndKeepsTheRams := by
  unfold Obligations.ResetClearsTheRegistersAndKeepsTheRams
  intro s
  exact ⟨⟨_, rfl, statusWord_resetBlock s, rfl, rfl, rfl, rfl, rfl, rfl, rfl, rfl, sameOutside_resetBlock s,
      ksAfterReset_cases s⟩,
    ⟨_, rfl, statusWord_resetBlock s, rfl, rfl, rfl, rfl, rfl, rfl, rfl, rfl, fun a => rfl, ksAfterReset_cases s⟩, rfl⟩

/-- Settles O56: each of these turns checks for its stop first. -/
theorem turnsOutsideTheSpecStopByName : Obligations.TurnsOutsideTheSpecStopByName := by
  unfold Obligations.TurnsOutsideTheSpecStopByName
  intro s
  refine ⟨fun x hrst => ?_, fun bytes hlocked => ?_, fun bytes hb hl hsize => placeKeyFile_of_idle hb hl hsize⟩
  · rw [busTurn, if_pos hrst]
  · rw [turn, placeKeyFile, if_pos (by simpa using hlocked)]

end Sys2Proof.Proofs
end

