-- ==== Sys2Proof/Proofs/HostRun.lean ====
section
/-! PROOF. From the host's CMD write to the result it reads, with writes in between that change nothing of it. -/

namespace Sys2Proof.Proofs

open Sys2Proof.Machine Sys2Proof.Safety Sys2Proof.Laws

/-! ## Host writes while a command runs -/

/-- The state with what a host write to a busy block may change taken from another: the response, OVR, the length registers
and the count of draws. No command reads these. -/
def withHostSide (u s : State) : State :=
  { s with resp := u.resp, ovr := u.ovr, msgLen := u.msgLen, keyLen := u.keyLen, draws := u.draws }

/-- A host write to a busy block stays on the host's side (R113). -/
theorem busTxn_busy_write {s : State} {x : Txn} (hb : s.busy = true) (hwr : x.dir = .wr) :
    busTxn x s = withHostSide (busTxn x s) s := by
  have hidle : ¬ s.busy = false := by rw [hb]; decide
  rcases busTxn_cases x s with ⟨d, r, ht⟩ | ⟨tgt, -, ⟨hrd, -⟩ | ⟨-, d, r, ht⟩⟩
  · rw [ht, withHostSide]
  · cases hwr.symm.trans hrd
  · rcases writeTarget_cases tgt x.wdata s with ⟨-, h, -⟩ | ⟨ml, kl, ov, hw, -⟩ | ⟨w, o, bs, -, -, h, -⟩
    · exact absurd h hidle
    · rw [ht, hw, withHostSide]
    · exact absurd h hidle

theorem msgBytes_withHostSide (u s : State) : msgBytes (withHostSide u s) = msgBytes s := msgBytes_congr rfl rfl rfl

theorem keyBytes_withHostSide (u s : State) : keyBytes (withHostSide u s) = keyBytes s :=
  readBytes_congr _ _ fun _ _ => rfl

theorem takeAnswer_withHostSide (u s : State) : takeAnswer (withHostSide u s) = withHostSide u (takeAnswer s) := by
  cases h : s.ksEnv <;> simp [takeAnswer, withHostSide, h]

theorem sequencing_withHostSide (k : Nat) (st : OtpState) (u s : State) :
    sequencing k st (withHostSide u s) = withHostSide u (sequencing k st s) := by
  have hcommutes : Function.Semiconj (withHostSide u) takeAnswer takeAnswer := fun s =>
    (takeAnswer_withHostSide u s).symm
  have hiterate : takeAnswer^[k] (withHostSide u s) = withHostSide u (takeAnswer^[k] s) :=
    ((hcommutes.iterate_right k).eq s).symm
  rw [sequencing, hiterate]
  rfl

theorem requestFails_withHostSide (k : Nat) (u s : State) : requestFails k (withHostSide u s) = requestFails k s := by
  rw [← nextIoFail_sequencing k .idle, sequencing_withHostSide, ← nextIoFail_sequencing k .idle]
  rfl

theorem consumed_withHostSide (truncate : Bool) (u s : State) :
    consumed truncate (withHostSide u s) = withHostSide u (consumed truncate s) := by
  rw [consumed, sequencing_withHostSide]
  rfl

/-- The results of a command agree: the error, OUT_LEN, H, OTP_STATE, the key store and every RAM byte. -/
structure SameResult (t t' : State) : Prop where
  err : t'.err = t.err
  outLen : t'.outLen = t.outLen
  h : t'.eng.h = t.eng.h
  otpState : t'.otpState = t.otpState
  ks : t'.ks = t.ks
  ram : SameRam t t'

theorem sameResult_completeError (code : ErrCode) (u s : State) :
    SameResult (completeError code s) (completeError code (withHostSide u s)) :=
  ⟨rfl, rfl, rfl, rfl, rfl, fun _ => rfl⟩

theorem sameResult_delivered (bs : List Byte) (len : Word) (u s : State) :
    SameResult (completeOk (deliver bs len s)) (completeOk (deliver bs len (withHostSide u s))) :=
  ⟨rfl, rfl, rfl, rfl, rfl, fun _ => rfl⟩

theorem deliverDigest_mem (e : Engine) (s : State) :
    (deliverDigest e s).mem = memWriteBytes s.mem (ramAddr .out 0) (ser e.h) := by
  rw [deliverDigest, completeOk_mem, deliver_mem]

theorem deliverDigest_powerOns (e : Engine) (s : State) : (deliverDigest e s).powerOns = s.powerOns := rfl

theorem sameResult_deliverDigest {e e' : Engine} (u s : State) (h : e'.h = e.h) :
    SameResult (deliverDigest e s) (deliverDigest e' (withHostSide u s)) where
  err := rfl
  outLen := rfl
  h := h
  otpState := rfl
  ks := rfl
  ram := by
    have hmem : (deliverDigest e' (withHostSide u s)).mem = (deliverDigest e s).mem := by
      rw [deliverDigest_mem, deliverDigest_mem, h, withHostSide]
    exact readByte_congr hmem (deliverDigest_powerOns ..)

/-- A command's result does not depend on the host's side of the state. -/
theorem exec_withHostSide (i : Instr) (u s : State) : ∃ t t', exec i s = .next t ∧
    exec i (withHostSide u s) = .next t' ∧ SameResult t t' := by
  have hcfg : (withHostSide u s).cfg = s.cfg := rfl
  have hn : opN (withHostSide u s) = opN s := rfl
  have hk : opK (withHostSide u s) = opK s := rfl
  cases i with
  | nop =>
    exact ⟨completeOk s, completeOk (withHostSide u s), rfl, rfl, ⟨rfl, rfl, rfl, rfl, rfl, fun _ => rfl⟩⟩
  | shaDigest =>
    refine ⟨_, _, execShaDigest_eq s, execShaDigest_eq _, ?_⟩
    rw [hcfg, hn]
    split
    · exact sameResult_completeError .capacity u s
    · exact sameResult_deliverDigest u s (by rw [runPhase_plain_h, runPhase_plain_h, msgBytes_withHostSide])
  | hmac =>
    refine ⟨_, _, execHmac_eq s, execHmac_eq _, ?_⟩
    rw [hcfg, hn, hk]
    split
    · exact sameResult_completeError .capacity u s
    · exact sameResult_deliverDigest u s
        (by rw [runHmac_h, runHmac_h, msgBytes_withHostSide, keyBytes_withHostSide])
  | xor =>
    refine ⟨_, _, execXor_eq s, execXor_eq _, ?_⟩
    rw [hcfg, hn, hk, msgBytes_withHostSide, keyBytes_withHostSide]
    split
    · exact sameResult_completeError .capacity u s
    split
    · exact sameResult_completeError .lengthMismatch u s
    · exact sameResult_delivered _ _ u s
  | otpXor truncate =>
    by_cases hcap : opN s ≤ s.cfg.bufCap
    · refine ⟨_, _, exec_otpXor_of_capacity truncate hcap, exec_otpXor_of_capacity truncate hcap, ?_⟩
      have hks : (withHostSide u s).ks = s.ks := rfl
      simp only [requestFails_withHostSide, sequencing_withHostSide, consumed_withHostSide, msgBytes_withHostSide, hn, hks]
      split
      · exact sameResult_completeError .ioFailure u _
      split
      · exact sameResult_completeError .keyTooShort u _
      split
      · exact sameResult_completeError .ioFailure u _
      split
      · exact sameResult_completeError .ioFailure u _
      · exact sameResult_delivered _ _ u _
    · have hlong : s.cfg.bufCap < opN s := Nat.lt_of_not_le hcap
      exact ⟨_, _, exec_of_long hlong nofun, exec_of_long (s := withHostSide u s) hlong nofun,
        sameResult_completeError .capacity u s⟩

/-- Settles O27: such a write stays on the host's side, which no command reads. -/
theorem busyWritesDoNotChangeTheResult : Obligations.BusyWritesDoNotChangeTheResult := by
  unfold Obligations.BusyWritesDoNotChangeTheResult
  intro s x i hb hwr
  obtain ⟨t, t', ht, ht', hsame⟩ := exec_withHostSide i (busTxn x s) s
  rw [← busTxn_busy_write hb hwr] at ht'
  exact ⟨t, t', ht, ht', hsame.err, hsame.outLen, hsame.h, hsame.otpState, hsame.ks, hsame.ram⟩

/-! ## A SHA_DIGEST from the CMD write to the reads -/

/-- Four bytes of a serialized digest, read as a word, are that word of it (R63, R178). -/
theorem readWordBE_of_ser {s : State} {a : Nat} {d : Hash} (h : readBytes s a 32 = ser d) (i : Fin 8) :
    readWordBE s (a + 4 * i.val) = digestWord d i := by
  have hi := i.isLt
  have hbytes : readBytes s (a + 4 * i.val) 4 = beBytes (digestWord d i) := by
    refine List.ext_getElem (by simp) fun j hj hj' => ?_
    have hj4 : j < 4 := by simpa using hj
    have hread : readByte s (a + (4 * i.val + j)) = (ser d).getD (4 * i.val + j) 0 := by
      rw [← h, List.getD_eq_getElem _ _ (by rw [readBytes_length]; omega), readBytes_getElem]
    rw [readBytes_getElem, Nat.add_assoc, hread, ser_getD d i j hj4, ← beBytes_getD _ j hj4,
      List.getD_eq_getElem _ _ hj']
  rw [readWordBE, hbytes, be32_beBytes]

/-- Settles O60: acceptance latches MSG_LEN (O9), the engine's turn is the SHA_DIGEST of the latched length (O12), and the
reads return the words of what it delivered. -/
theorem hostShaDigestRunsToTheResult : Obligations.HostShaDigestRunsToTheResult := by
  unfold Obligations.HostShaDigestRunsToTheResult
  intro s hrst hb hcap
  obtain ⟨t, hwrite, -, -, -, hidleOtp, hcommand, hnLat, -, -, -, -, -, -, hovr, -, -, -, hram, hcfg, -, htrst, -⟩ :=
    validCommandWriteIsAccepted s 0x00000001 .shaDigest hrst hb (decode_encode .shaDigest)
  have hn : opN t = s.msgLen.toNat := congrArg BitVec.toNat hnLat
  obtain ⟨u, hexec, hok, hframe, hh, hout, hlen, -, hotp, -⟩ := shaDigestDeliversTheDigest t (by rwa [hn, hcfg])
  have hmsg : ramBytes t .msg s.msgLen.toNat = ramBytes s .msg s.msgLen.toNat :=
    readBytes_congr _ _ fun i _ => hram _
  rw [hn, hmsg] at hh hout
  have hucfg : u.cfg = s.cfg := hframe.cfg.trans hcfg
  have hurst : u.rst = false := hframe.rst.trans (htrst.trans hrst)
  have hidle : u.busy = false := by
    obtain ⟨-, hidle, -⟩ := hok
    exact hidle
  refine ⟨t, u, hwrite, (engineTurn_of_inProgress hcommand).trans hexec, hh, hout, hlen, hok, hotp.trans hidleOtp,
    hframe.ovr.trans hovr, fun i => ?_, fun hwf i => ?_⟩
  · rw [busTurn_regRead hurst (readReg_digest_idle hidle i), hh]
  · have hi := i.isLt
    obtain ⟨h64, -⟩ := bufCap_le_of_wf hwf
    have hword : readWordBE u (ramAddr .out (4 * i.val)) = _ := readWordBE_of_ser hout i
    rw [busTurn_wordRead hurst (hucfg ▸ hwf) (.inr hidle) (by omega) (by rw [hucfg]; omega), hword]

end Sys2Proof.Proofs
end
